-- ==== Sys2Proof/Word.lean ====
section
/-! DEFINITION. The plain data types of the core: bytes, 16-bit words, 12-bit addresses, and the indexes of registers and keys. -/

namespace Sys2Proof

/-- A `u8` (spec R12): the content of a V register, of a timer and of a memory cell. -/
abbrev Byte := BitVec 8

/-- A `u16` (spec R12): PC, I, a stack slot, an instruction word. -/
abbrev Word := BitVec 16

/-- The 12-bit address field `NNN` of an instruction (spec R75). -/
abbrev Addr := BitVec 12

/-- A register number 0..15, the field X or Y (spec R21, R75). -/
abbrev Reg := Fin 16

/-- A key number 0x0..0xF (spec R35). -/
abbrev Key := Fin 16

end Sys2Proof
end

