-- ==== Sys2Proof/Syntax.lean ====
section
/-! DEFINITION. The 35 instructions of the opcode table (spec R76, R83), one constructor a row of spec/opcode_table.json. -/

namespace Sys2Proof

/-- An instruction with its operands. Every operand has the width of its field (spec R74, R75), so an operand out of
range cannot be written; what can be ill-formed is a word (WellFormed.lean). -/
inductive Instr where
  /-- `0000` (R100): no operation. -/
  | nop
  /-- `00E0` (R190): clear the screen. -/
  | cls
  /-- `00EE` (R103): return from subroutine. -/
  | ret
  /-- `1NNN` (R104): jump. -/
  | jp (nnn : Addr)
  /-- `2NNN` (R106): call subroutine. -/
  | call (nnn : Addr)
  /-- `3XNN` (R108): skip if V[X] = NN. -/
  | seVxNn (x : Reg) (nn : Byte)
  /-- `4XNN` (R109): skip if V[X] != NN. -/
  | sneVxNn (x : Reg) (nn : Byte)
  /-- `5XY0` (R110): skip if V[X] = V[Y]. -/
  | seVxVy (x y : Reg)
  /-- `6XNN` (R132): load immediate. -/
  | ldVxNn (x : Reg) (nn : Byte)
  /-- `7XNN` (R133): add immediate, no flag. -/
  | addVxNn (x : Reg) (nn : Byte)
  /-- `8XY0` (R134): copy V[Y] to V[X]. -/
  | ldVxVy (x y : Reg)
  /-- `8XY1` (R135): bitwise OR. -/
  | orVxVy (x y : Reg)
  /-- `8XY2` (R136): bitwise AND. -/
  | andVxVy (x y : Reg)
  /-- `8XY3` (R137): bitwise XOR. -/
  | xorVxVy (x y : Reg)
  /-- `8XY4` (R138): add, VF = carry. -/
  | addVxVy (x y : Reg)
  /-- `8XY5` (R139): V[X] - V[Y], VF = no borrow. -/
  | sub (x y : Reg)
  /-- `8XY6` (R143): shift right one, VF = bit shifted out. Y is encoded but ignored (R74); the constructor keeps it, so that no bit of the word is lost (log 7). -/
  | shr (x y : Reg)
  /-- `8XY7` (R144): V[Y] - V[X], VF = no borrow. -/
  | subn (x y : Reg)
  /-- `8XYE` (R145): shift left one, VF = bit shifted out. Y is encoded but ignored (R74; log 7). -/
  | shl (x y : Reg)
  /-- `9XY0` (R111): skip if V[X] != V[Y]. -/
  | sneVxVy (x y : Reg)
  /-- `ANNN` (R160): load the index register. -/
  | ldINnn (nnn : Addr)
  /-- `BNNN` (R105): jump to V[0] + NNN. -/
  | jpV0 (nnn : Addr)
  /-- `CXNN` (R146): random byte masked with NN. -/
  | rnd (x : Reg) (nn : Byte)
  /-- `DXYN` (R191): draw an N-row sprite. -/
  | drw (x y : Reg) (n : Fin 16)
  /-- `EX9E` (R210): skip if key V[X] is pressed. -/
  | skp (x : Reg)
  /-- `EXA1` (R211): skip if key V[X] is released. -/
  | sknp (x : Reg)
  /-- `FX07` (R212): read the delay timer. -/
  | ldVxDt (x : Reg)
  /-- `FX0A` (R213): wait for a key. -/
  | ldVxK (x : Reg)
  /-- `FX15` (R214): set the delay timer. -/
  | ldDtVx (x : Reg)
  /-- `FX18` (R215): set the sound timer. -/
  | ldStVx (x : Reg)
  /-- `FX1E` (R161): add V[X] to the index register. -/
  | addIVx (x : Reg)
  /-- `FX29` (R162): point I at a font glyph. -/
  | ldFVx (x : Reg)
  /-- `FX33` (R164): store the BCD digits of V[X]. -/
  | ldBVx (x : Reg)
  /-- `FX55` (R165): store V[0]..V[X]. -/
  | ldMemVx (x : Reg)
  /-- `FX65` (R166): load V[0]..V[X]. -/
  | ldVxMem (x : Reg)
  deriving DecidableEq, Repr

/-- The name of an instruction's row in spec/opcode_table.json. -/
def Instr.mnemonic : Instr → String
  | .nop => "NOP"
  | .cls => "CLS"
  | .ret => "RET"
  | .jp _ => "JP"
  | .call _ => "CALL"
  | .seVxNn _ _ => "SE_VX_NN"
  | .sneVxNn _ _ => "SNE_VX_NN"
  | .seVxVy _ _ => "SE_VX_VY"
  | .ldVxNn _ _ => "LD_VX_NN"
  | .addVxNn _ _ => "ADD_VX_NN"
  | .ldVxVy _ _ => "LD_VX_VY"
  | .orVxVy _ _ => "OR"
  | .andVxVy _ _ => "AND"
  | .xorVxVy _ _ => "XOR"
  | .addVxVy _ _ => "ADD_VX_VY"
  | .sub _ _ => "SUB"
  | .shr _ _ => "SHR"
  | .subn _ _ => "SUBN"
  | .shl _ _ => "SHL"
  | .sneVxVy _ _ => "SNE_VX_VY"
  | .ldINnn _ => "LD_I_NNN"
  | .jpV0 _ => "JP_V0"
  | .rnd _ _ => "RND"
  | .drw _ _ _ => "DRW"
  | .skp _ => "SKP"
  | .sknp _ => "SKNP"
  | .ldVxDt _ => "LD_VX_DT"
  | .ldVxK _ => "LD_VX_K"
  | .ldDtVx _ => "LD_DT_VX"
  | .ldStVx _ => "LD_ST_VX"
  | .addIVx _ => "ADD_I_VX"
  | .ldFVx _ => "LD_F_VX"
  | .ldBVx _ => "LD_B_VX"
  | .ldMemVx _ => "LD_MEM_VX"
  | .ldVxMem _ => "LD_VX_MEM"

end Sys2Proof
end

