-- ==== Sys2Proof/WellFormed.lean ====
section
/-! DEFINITION. Which instruction words are well formed: those that match a row of spec/opcode_table.json (spec R76, R78). -/

namespace Sys2Proof

/-- One row of spec/opcode_table.json: a word `w` belongs to it when `w & mask = pattern`. -/
structure OpcodeRow where
  /-- The row's mnemonic. -/
  mnemonic : String
  /-- The bits the row fixes. -/
  mask : Word
  /-- Their values (the table's "match"). -/
  pattern : Word
  deriving DecidableEq, Repr

/-- Rows 0000 to 6XNN of the opcode table. -/
def opcodeRowsControl : List OpcodeRow :=
  [⟨"NOP", 0xFFFF, 0x0000⟩,
   ⟨"CLS", 0xFFFF, 0x00E0⟩,
   ⟨"RET", 0xFFFF, 0x00EE⟩,
   ⟨"JP", 0xF000, 0x1000⟩,
   ⟨"CALL", 0xF000, 0x2000⟩,
   ⟨"SE_VX_NN", 0xF000, 0x3000⟩,
   ⟨"SNE_VX_NN", 0xF000, 0x4000⟩,
   ⟨"SE_VX_VY", 0xF00F, 0x5000⟩,
   ⟨"LD_VX_NN", 0xF000, 0x6000⟩]

/-- Rows 7XNN to 9XY0 of the opcode table. -/
def opcodeRowsAlu : List OpcodeRow :=
  [⟨"ADD_VX_NN", 0xF000, 0x7000⟩,
   ⟨"LD_VX_VY", 0xF00F, 0x8000⟩,
   ⟨"OR", 0xF00F, 0x8001⟩,
   ⟨"AND", 0xF00F, 0x8002⟩,
   ⟨"XOR", 0xF00F, 0x8003⟩,
   ⟨"ADD_VX_VY", 0xF00F, 0x8004⟩,
   ⟨"SUB", 0xF00F, 0x8005⟩,
   ⟨"SHR", 0xF00F, 0x8006⟩,
   ⟨"SUBN", 0xF00F, 0x8007⟩,
   ⟨"SHL", 0xF00F, 0x800E⟩,
   ⟨"SNE_VX_VY", 0xF00F, 0x9000⟩]

/-- Rows ANNN to EXA1 of the opcode table. -/
def opcodeRowsIndexKeys : List OpcodeRow :=
  [⟨"LD_I_NNN", 0xF000, 0xA000⟩,
   ⟨"JP_V0", 0xF000, 0xB000⟩,
   ⟨"RND", 0xF000, 0xC000⟩,
   ⟨"DRW", 0xF000, 0xD000⟩,
   ⟨"SKP", 0xF0FF, 0xE09E⟩,
   ⟨"SKNP", 0xF0FF, 0xE0A1⟩]

/-- Rows FX07 to FX65 of the opcode table. -/
def opcodeRowsF : List OpcodeRow :=
  [⟨"LD_VX_DT", 0xF0FF, 0xF007⟩,
   ⟨"LD_VX_K", 0xF0FF, 0xF00A⟩,
   ⟨"LD_DT_VX", 0xF0FF, 0xF015⟩,
   ⟨"LD_ST_VX", 0xF0FF, 0xF018⟩,
   ⟨"ADD_I_VX", 0xF0FF, 0xF01E⟩,
   ⟨"LD_F_VX", 0xF0FF, 0xF029⟩,
   ⟨"LD_B_VX", 0xF0FF, 0xF033⟩,
   ⟨"LD_MEM_VX", 0xF0FF, 0xF055⟩,
   ⟨"LD_VX_MEM", 0xF0FF, 0xF065⟩]

/-- The opcode table, all 35 rows in the table's order. -/
def opcodeTable : List OpcodeRow :=
  opcodeRowsControl ++ opcodeRowsAlu ++ opcodeRowsIndexKeys ++ opcodeRowsF

/-- `w` matches the row. -/
def OpcodeRow.covers (r : OpcodeRow) (w : Word) : Bool :=
  w &&& r.mask == r.pattern

/-- The word is one of the 43955 that stand for an instruction (spec R78); every other word is an unimplemented opcode.
This check reads the opcode table only; Decode.lean is written from the case analysis of spec R76, and that the two agree is a statement. -/
def wordWellFormed (w : Word) : Bool :=
  opcodeTable.any (fun r => r.covers w)

end Sys2Proof
end

