-- ==== Sys2Proof/Decode.lean ====
section
/-! DEFINITION. The decoder (spec R54, R71, R73-R80), total on any bytes and rejecting by name, and the encoder. -/

namespace Sys2Proof

/-- Why bytes do not decode. -/
inductive DecodeError where
  /-- No pattern of spec R76 matches the word (spec R78). STEP turns it into the fault UNIMPLEMENTED_OPCODE. Safe: the spec's own policy. -/
  | unimplementedOpcode (w : Word)
  /-- Fewer than two bytes were given. The machine never meets it: fetch checks the range first (spec R71). Safe. -/
  | truncated
  deriving DecidableEq, Repr

/-- The 4-bit field of `w` whose lowest bit is bit `lo` (spec R9). -/
def nibbleAt (w : Word) (lo : Nat) : Fin 16 :=
  ⟨w.toNat / 2 ^ lo % 16, Nat.mod_lt _ (by decide)⟩

/-- X = w[11:8] (spec R10). -/
def fieldX (w : Word) : Reg := nibbleAt w 8

/-- Y = w[7:4] (spec R10). -/
def fieldY (w : Word) : Reg := nibbleAt w 4

/-- N = w[3:0] (spec R10). -/
def fieldN (w : Word) : Fin 16 := nibbleAt w 0

/-- NN = w[7:0] (spec R10). -/
def fieldNN (w : Word) : Byte := BitVec.ofNat 8 w.toNat

/-- NNN = w[11:0] (spec R10). -/
def fieldNNN (w : Word) : Addr := BitVec.ofNat 12 w.toNat

/-- Family 0 of spec R76: the whole word selects. -/
def decodeSystem (w : Word) : Option Instr :=
  match w.toNat with
  | 0x0000 => some .nop
  | 0x00E0 => some .cls
  | 0x00EE => some .ret
  | _ => none

/-- Family 8 of spec R76: N selects. -/
def decodeAlu (w : Word) : Option Instr :=
  match (fieldN w).val with
  | 0x0 => some (.ldVxVy (fieldX w) (fieldY w))
  | 0x1 => some (.orVxVy (fieldX w) (fieldY w))
  | 0x2 => some (.andVxVy (fieldX w) (fieldY w))
  | 0x3 => some (.xorVxVy (fieldX w) (fieldY w))
  | 0x4 => some (.addVxVy (fieldX w) (fieldY w))
  | 0x5 => some (.sub (fieldX w) (fieldY w))
  | 0x6 => some (.shr (fieldX w) (fieldY w))
  | 0x7 => some (.subn (fieldX w) (fieldY w))
  | 0xE => some (.shl (fieldX w) (fieldY w))
  | _ => none

/-- Family E of spec R76: NN selects. -/
def decodeKey (w : Word) : Option Instr :=
  match (fieldNN w).toNat with
  | 0x9E => some (.skp (fieldX w))
  | 0xA1 => some (.sknp (fieldX w))
  | _ => none

/-- Family F of spec R76: NN selects. -/
def decodeMisc (w : Word) : Option Instr :=
  match (fieldNN w).toNat with
  | 0x07 => some (.ldVxDt (fieldX w))
  | 0x0A => some (.ldVxK (fieldX w))
  | 0x15 => some (.ldDtVx (fieldX w))
  | 0x18 => some (.ldStVx (fieldX w))
  | 0x1E => some (.addIVx (fieldX w))
  | 0x29 => some (.ldFVx (fieldX w))
  | 0x33 => some (.ldBVx (fieldX w))
  | 0x55 => some (.ldMemVx (fieldX w))
  | 0x65 => some (.ldVxMem (fieldX w))
  | _ => none

/-- `Decode(w)` of spec R76, by the leading nibble; `none` is UNIMPLEMENTED. -/
def decodeWord (w : Word) : Option Instr :=
  match (nibbleAt w 12).val with
  | 0x0 => decodeSystem w
  | 0x1 => some (.jp (fieldNNN w))
  | 0x2 => some (.call (fieldNNN w))
  | 0x3 => some (.seVxNn (fieldX w) (fieldNN w))
  | 0x4 => some (.sneVxNn (fieldX w) (fieldNN w))
  | 0x5 => if (fieldN w).val = 0 then some (.seVxVy (fieldX w) (fieldY w)) else none
  | 0x6 => some (.ldVxNn (fieldX w) (fieldNN w))
  | 0x7 => some (.addVxNn (fieldX w) (fieldNN w))
  | 0x8 => decodeAlu w
  | 0x9 => if (fieldN w).val = 0 then some (.sneVxVy (fieldX w) (fieldY w)) else none
  | 0xA => some (.ldINnn (fieldNNN w))
  | 0xB => some (.jpV0 (fieldNNN w))
  | 0xC => some (.rnd (fieldX w) (fieldNN w))
  | 0xD => some (.drw (fieldX w) (fieldY w) (fieldN w))
  | 0xE => decodeKey w
  | _ => decodeMisc w

/-- Two bytes as an instruction word, the first one bits 15:8 (spec R54). -/
def wordOfBytes (hi lo : Byte) : Word :=
  BitVec.ofNat 16 (hi.toNat * 256 + lo.toNat)

/-- The two bytes of a word in memory order, bits 15:8 first (spec R54). -/
def bytesOfWord (w : Word) : List Byte :=
  [BitVec.ofNat 8 (w.toNat / 256), BitVec.ofNat 8 w.toNat]

/-- Decode the instruction at the head of a list of bytes; answer it and the bytes after it (spec R71, R73, R76). -/
def decode : List Byte → Except DecodeError (Instr × List Byte)
  | hi :: lo :: rest =>
    match decodeWord (wordOfBytes hi lo) with
    | some i => .ok (i, rest)
    | none => .error (.unimplementedOpcode (wordOfBytes hi lo))
  | _ => .error .truncated

/-- The word of an instruction (spec R74): the row's fixed nibbles with each operand in its field. -/
def encode : Instr → Word
  | .nop => 0x0000
  | .cls => 0x00E0
  | .ret => 0x00EE
  | .jp nnn => BitVec.ofNat 16 (0x1000 + nnn.toNat)
  | .call nnn => BitVec.ofNat 16 (0x2000 + nnn.toNat)
  | .seVxNn x nn => BitVec.ofNat 16 (0x3000 + x.val * 0x100 + nn.toNat)
  | .sneVxNn x nn => BitVec.ofNat 16 (0x4000 + x.val * 0x100 + nn.toNat)
  | .seVxVy x y => BitVec.ofNat 16 (0x5000 + x.val * 0x100 + y.val * 0x10)
  | .ldVxNn x nn => BitVec.ofNat 16 (0x6000 + x.val * 0x100 + nn.toNat)
  | .addVxNn x nn => BitVec.ofNat 16 (0x7000 + x.val * 0x100 + nn.toNat)
  | .ldVxVy x y => BitVec.ofNat 16 (0x8000 + x.val * 0x100 + y.val * 0x10)
  | .orVxVy x y => BitVec.ofNat 16 (0x8001 + x.val * 0x100 + y.val * 0x10)
  | .andVxVy x y => BitVec.ofNat 16 (0x8002 + x.val * 0x100 + y.val * 0x10)
  | .xorVxVy x y => BitVec.ofNat 16 (0x8003 + x.val * 0x100 + y.val * 0x10)
  | .addVxVy x y => BitVec.ofNat 16 (0x8004 + x.val * 0x100 + y.val * 0x10)
  | .sub x y => BitVec.ofNat 16 (0x8005 + x.val * 0x100 + y.val * 0x10)
  | .shr x y => BitVec.ofNat 16 (0x8006 + x.val * 0x100 + y.val * 0x10)
  | .subn x y => BitVec.ofNat 16 (0x8007 + x.val * 0x100 + y.val * 0x10)
  | .shl x y => BitVec.ofNat 16 (0x800E + x.val * 0x100 + y.val * 0x10)
  | .sneVxVy x y => BitVec.ofNat 16 (0x9000 + x.val * 0x100 + y.val * 0x10)
  | .ldINnn nnn => BitVec.ofNat 16 (0xA000 + nnn.toNat)
  | .jpV0 nnn => BitVec.ofNat 16 (0xB000 + nnn.toNat)
  | .rnd x nn => BitVec.ofNat 16 (0xC000 + x.val * 0x100 + nn.toNat)
  | .drw x y n => BitVec.ofNat 16 (0xD000 + x.val * 0x100 + y.val * 0x10 + n.val)
  | .skp x => BitVec.ofNat 16 (0xE09E + x.val * 0x100)
  | .sknp x => BitVec.ofNat 16 (0xE0A1 + x.val * 0x100)
  | .ldVxDt x => BitVec.ofNat 16 (0xF007 + x.val * 0x100)
  | .ldVxK x => BitVec.ofNat 16 (0xF00A + x.val * 0x100)
  | .ldDtVx x => BitVec.ofNat 16 (0xF015 + x.val * 0x100)
  | .ldStVx x => BitVec.ofNat 16 (0xF018 + x.val * 0x100)
  | .addIVx x => BitVec.ofNat 16 (0xF01E + x.val * 0x100)
  | .ldFVx x => BitVec.ofNat 16 (0xF029 + x.val * 0x100)
  | .ldBVx x => BitVec.ofNat 16 (0xF033 + x.val * 0x100)
  | .ldMemVx x => BitVec.ofNat 16 (0xF055 + x.val * 0x100)
  | .ldVxMem x => BitVec.ofNat 16 (0xF065 + x.val * 0x100)

/-- The instruction the decoder reads from the word whose bits are `w`, numbered as spec/opcode_table.json numbers
them (bit 0 the least significant of the 16-bit word); bits at or above `nbits` are 0. The word is laid out big-endian and decoded. -/
def decodeTableWord (nbits w : Nat) : Option Instr :=
  match decode (bytesOfWord (BitVec.ofNat 16 (w % 2 ^ nbits))) with
  | .ok (i, _) => some i
  | .error _ => none

end Sys2Proof
end

