-- ==== Sys2Proof/Config.lean ====
section
/-! DEFINITION. The block's two open values, FONT and the random draws (spec R8), and the conventional font.
The sizes that spec R7 fixes are in the types of State (16 registers, 16 stack slots, 64 by 32 cells, 16 keys, 8-bit
timers) and stand as numbers where an operation needs them: 4096 bytes of memory, PROGRAM_START 0x200, 5 bytes to a glyph. -/

namespace Sys2Proof

/-- The named parameter `FONT` (spec R8, R33; decision D13): the source does not give the 80 bytes, so they
have no value here and nothing can be proved of one of them. DESIGN CHOICE (log 3): a constant of the machine. Safe. -/
opaque Config.font : Vector Byte 80

/-- The random bytes CXNN consumes (spec R37, R146; decision D16): draw number n is any byte. No value and no
law of it is known. DESIGN CHOICE (log 5): the draws of a run are numbered in the order CXNN takes them. Safe. -/
opaque Config.rnd : Nat → Byte

/-- The conventional font table of spec R33, which the spec marks as general knowledge (G1). It is NOT what reset
memory holds: `Config.font` is. A host that wants this font writes it with HOST_WRITE_MEM, and a claim about it takes it as a premise. -/
def Config.conventionalFont : List Byte :=
  [0xF0, 0x90, 0x90, 0x90, 0xF0, 0x20, 0x60, 0x20, 0x20, 0x70,
   0xF0, 0x10, 0xF0, 0x80, 0xF0, 0xF0, 0x10, 0xF0, 0x10, 0xF0] ++
  [0x90, 0x90, 0xF0, 0x10, 0x10, 0xF0, 0x80, 0xF0, 0x10, 0xF0,
   0xF0, 0x80, 0xF0, 0x90, 0xF0, 0xF0, 0x10, 0x20, 0x40, 0x40] ++
  [0xF0, 0x90, 0xF0, 0x90, 0xF0, 0xF0, 0x90, 0xF0, 0x10, 0xF0,
   0xF0, 0x90, 0xF0, 0x90, 0x90, 0xE0, 0x90, 0xE0, 0x90, 0xE0] ++
  [0xF0, 0x80, 0x80, 0x80, 0xF0, 0xE0, 0x90, 0x90, 0x90, 0xE0,
   0xF0, 0x80, 0xF0, 0x80, 0xF0, 0xF0, 0x80, 0xF0, 0x80, 0x80]

end Sys2Proof
end

