-- ==== Sys2Proof/Machine/State.lean ====
section
/-! DEFINITION. Everything the spec gives the machine (spec R20), the reasons a step can stop, and the state after RESET (spec R47). -/

namespace Sys2Proof.Machine

/-- `mem` (spec R32, R50). The cells that differ from their reset content, as (address, byte) pairs in rising order of
address; an address that is not listed holds its reset content (`Memory.resetByte`, log 4). -/
structure Memory where
  /-- The listed cells. -/
  cells : List Host.Cell
  deriving DecidableEq, Repr

/-- The screen (spec R34): 32 rows, top row first, of 64 pixels, leftmost first; `true` is set (lit). -/
abbrev Screen := Vector (Vector Bool 64) 32

/-- The six faults of spec R231 with the data of their info column. Each one stops the core where the source leaves
the effect undefined or calls the condition fatal. -/
inductive FaultCause where
  /-- Code 1. STEP raises it when decode finds no pattern for the word `w` (R76, R78). Safe: the source's own policy (U9). -/
  | unimplementedOpcode (w : Word)
  /-- Code 2. STEP raises it at fetch when PC + 1 >= 4096 (R71). Safe: the model stops where the source is undefined (U1). -/
  | fetchOutOfRange (pc : Word)
  /-- Code 3. CALL raises it when SP = 16 (R101, R106). Safe: the model stops where the reference is unguarded (U2). -/
  | stackOverflow
  /-- Code 4. RET raises it when SP = 0 (R102, R103). Safe: the model stops where the reference is unguarded (U3). -/
  | stackUnderflow
  /-- Code 5. DRW, LD_B_VX, LD_MEM_VX and LD_VX_MEM raise it when an address they access is 4096 or more; `a` is the
  lowest such address (R53, R231). Safe: the model stops where the source is undefined (U4). -/
  | memOutOfRange (a : Nat)
  /-- Code 6. SKP and SKNP raise it when V[X] > 15; `k` is V[X] (R210, R211). Safe: the model stops where the source is undefined (U5). -/
  | keyIndexOutOfRange (k : Byte)
  deriving DecidableEq, Repr

/-- A fault record (spec R232). `code` and `info` of the spec are `FaultCause.code` and `FaultCause.info` of the cause. -/
structure FaultRecord where
  /-- Which fault, with its info. -/
  cause : FaultCause
  /-- The address of the instruction being executed, or the PC at which the fetch failed. -/
  addr : Word
  /-- The fetched instruction word; `none` for FETCH_OUT_OF_RANGE. -/
  word : Option Word
  deriving DecidableEq, Repr

/-- The architectural state (spec R20) and, last, one field of the model's own. -/
structure State where
  /-- V[0..15] (spec R21); V[15] is VF (R22). -/
  v : Vector Byte 16
  /-- PC (spec R24). -/
  pc : Word
  /-- I, the index register (spec R27). -/
  i : Word
  /-- stack[0..15] (spec R28). -/
  stack : Vector Word 16
  /-- SP, the number of occupied slots, 0..16 (spec R29; conflict C1). -/
  sp : Fin 17
  /-- DT, the delay timer (spec R30). -/
  dt : Byte
  /-- ST, the sound timer (spec R30). -/
  st : Byte
  /-- mem[0..4095] (spec R32). -/
  mem : Memory
  /-- The screen (spec R34). -/
  screen : Screen
  /-- key[0..15], `true` = pressed (spec R35). -/
  keys : Vector Bool 16
  /-- The fault latch (spec R44). -/
  fault : Option FaultRecord
  /-- The model's own: how many random bytes CXNN has consumed, so that the next one is `Config.rnd draws`. DESIGN CHOICE (log 5). -/
  draws : Nat
  deriving DecidableEq, Repr

/-- The fault outcome of a STEP, `Fault(record, state')` of spec R37 and R236. -/
inductive Fault where
  /-- Raised by `step` (fetch and decode) and by the meanings of CALL, RET, DRW, LD_B_VX, LD_MEM_VX, LD_VX_MEM, SKP and
  SKNP, for the causes `FaultCause` lists: `record` is the fault record and `after` the halted state, with the record
  latched. Safe: the core stops, and no behaviour of the halted core is claimed (log 1). -/
  | fatal (record : FaultRecord) (after : State)
  deriving DecidableEq, Repr

/-- Why a step has no meaning. -/
inductive Refusal where
  /-- Raised by an arm of `exec` whose instruction has no meaning yet; no arm of this model raises it. Safe: the model stops. -/
  | notModelled (mnemonic : String)
  /-- Raised by `step` and `tick` on a state whose fault latch holds `record`: STEP and TICK are not enabled there, so no
  transition exists (spec R44, R70, R236, R240). Safe: the spec gives no transition (log 2). -/
  | coreHalted (record : FaultRecord)
  deriving DecidableEq, Repr

/-- The baseline of spec R47: everything zero, PC at 0x200, memory at its reset content (FONT at 0x000-0x04F, zero
above), no key pressed, no fault. `draws` is the model's own field and starts at 0: DESIGN CHOICE (log 5). -/
def State.reset : State where
  v := Vector.replicate 16 0
  pc := 0x200
  i := 0
  stack := Vector.replicate 16 0
  sp := 0
  dt := 0
  st := 0
  mem := ⟨[]⟩
  screen := Vector.replicate 32 (Vector.replicate 64 false)
  keys := Vector.replicate 16 false
  fault := none
  draws := 0

end Sys2Proof.Machine
end

