-- ==== Sys2Proof/Machine/Ops.lean ====
section
/-! DEFINITION. The named operations over memory, registers, PC, stack and keys, and taking a fault, which every meaning is built from. -/

namespace Sys2Proof.Machine

/-- What a step answers. -/
abbrev Result := Host.Outcome State Fault Refusal

/-! ### Memory -/

/-- The reset content of address `a` (spec R47, R60): FONT below 0x050, zero elsewhere. It is what an address that
memory does not list reads as (log 4). -/
def Memory.resetByte (a : Nat) : Byte :=
  if h : a < 80 then Config.font[a] else 0

/-- The byte a list of cells gives address `a`, if it lists it. -/
def cellAt (a : Nat) : List Host.Cell → Option Byte
  | [] => none
  | c :: cs => if c.1 = a then some c.2 else cellAt a cs

/-- The content of address `a`: the byte last written there, or its reset content (spec R59). -/
def Memory.byteAt (m : Memory) (a : Nat) : Byte :=
  (cellAt a m.cells).getD (Memory.resetByte a)

/-- `MemRead(a, 1)` of spec R13 and R53; `none` where it raises MEM_OUT_OF_RANGE. -/
def Memory.read (m : Memory) (a : Nat) : Option Byte :=
  if a < 4096 then some (m.byteAt a) else none

/-- List the cell (a, v) among cells in rising order, in place of any cell of `a`. -/
def insertCell (a : Nat) (v : Byte) : List Host.Cell → List Host.Cell
  | [] => [(a, v)]
  | c :: cs =>
    if a < c.1 then (a, v) :: c :: cs
    else if a = c.1 then (a, v) :: cs
    else c :: insertCell a v cs

/-- Take the cells of address `a` off the list. -/
def eraseCell (a : Nat) (cs : List Host.Cell) : List Host.Cell :=
  cs.filter (fun c => c.1 != a)

/-- Write one byte (spec R59). A byte equal to the reset content is taken off the list, so that equal memories are
equal data. Outside memory nothing is written: the callers check the range first (spec R53). -/
def Memory.write (m : Memory) (a : Nat) (v : Byte) : Memory :=
  if a < 4096 then
    ⟨if v = Memory.resetByte a then eraseCell a m.cells else insertCell a v m.cells⟩
  else m

/-- The range check of spec R164, R165, R166 and R191: of the addresses base, base + 1, .., base + n - 1, as exact
integers (spec R52), the first that is 4096 or more. -/
def firstOutside (base n : Nat) : Option Nat :=
  ((List.range n).map (fun k => base + k)).find? (fun a => decide (4096 ≤ a))

/-- The bytes at base, .., base + n - 1, or the lowest address of them outside memory (spec R53, R57). -/
def Memory.readBlock (m : Memory) (base n : Nat) : Except Nat (List Byte) :=
  match firstOutside base n with
  | some a => .error a
  | none => .ok ((List.range n).map (fun k => m.byteAt (base + k)))

/-- Write bytes at base, base + 1, .. in ascending order (spec R54). -/
def Memory.writeFrom (m : Memory) (base : Nat) : List Byte → Memory
  | [] => m
  | b :: bs => (m.write base b).writeFrom (base + 1) bs

/-- Write a block of bytes from `base`, or answer its lowest address outside memory: all addresses are checked before
the first write (spec R53, R234). -/
def Memory.writeBlock (m : Memory) (base : Nat) (bs : List Byte) : Except Nat Memory :=
  match firstOutside base bs.length with
  | some a => .error a
  | none => .ok (m.writeFrom base bs)

/-! ### Registers -/

/-- Read V[x] (spec R21). -/
def State.getV (s : State) (x : Reg) : Byte := s.v[x]

/-- V[x] <- b (spec R21). -/
def State.setV (s : State) (x : Reg) (b : Byte) : State := { s with v := s.v.set x b }

/-- The number of VF (spec R22). -/
def regF : Reg := 15

/-- The result to V[x], then the flag to VF (spec R131; D11): with x = F the flag is what stays. -/
def State.setVFlag (s : State) (x : Reg) (result flag : Byte) : State :=
  (s.setV x result).setV regF flag

/-- V[k], V[k+1], .. <- the bytes in order (spec R166). -/
def setRegsFrom (v : Vector Byte 16) (k : Nat) : List Byte → Vector Byte 16
  | [] => v
  | b :: bs => setRegsFrom (v.setIfInBounds k b) (k + 1) bs

/-- V[0]..V[x] in order (spec R165). -/
def State.regsUpTo (s : State) (x : Reg) : List Byte := s.v.toList.take (x.val + 1)

/-- PC <- target (spec R24). -/
def State.setPc (s : State) (target : Word) : State := { s with pc := target }

/-- I <- w (spec R27). -/
def State.setI (s : State) (w : Word) : State := { s with i := w }

/-- DT <- b (spec R30). -/
def State.setDt (s : State) (b : Byte) : State := { s with dt := b }

/-- ST <- b (spec R30). -/
def State.setSt (s : State) (b : Byte) : State := { s with st := b }

/-- Replace the memory. -/
def State.setMem (s : State) (m : Memory) : State := { s with mem := m }

/-- Replace the screen. -/
def State.setScreen (s : State) (p : Screen) : State := { s with screen := p }

/-- Replace all V registers. -/
def State.setRegs (s : State) (v : Vector Byte 16) : State := { s with v := v }

/-- The post-fetch advance, PC <- (PC + 2) mod 65536 (spec R72). -/
def State.advance (s : State) : State := s.setPc (s.pc + 2)

/-- A skip, made during execute on top of the post-fetch advance (spec R82). -/
def State.skipIf (s : State) (cond : Bool) : State := if cond then s.setPc (s.pc + 2) else s

/-- The rewind of FX0A, PC <- PC - 2 (spec R213). -/
def State.rewind (s : State) : State := s.setPc (s.pc - 2)

/-- Take the next random byte (spec R37, R146): answer it with the state in which the one after it is next (log 5). -/
def State.draw (s : State) : Byte × State := (Config.rnd s.draws, { s with draws := s.draws + 1 })

/-! ### Stack -/

/-- `Push(v)` of spec R101; `none` where it raises STACK_OVERFLOW. -/
def State.push (s : State) (w : Word) : Option State :=
  if h : s.sp.val < 16 then
    some { s with stack := s.stack.set s.sp.val w, sp := ⟨s.sp.val + 1, by omega⟩ }
  else none

/-- `Pop()` of spec R102; `none` where it raises STACK_UNDERFLOW. The popped slot keeps its value (spec R46; D17). -/
def State.pop (s : State) : Option (Word × State) :=
  if h : s.sp.val = 0 then none
  else some (s.stack[s.sp.val - 1]'(by omega), { s with sp := ⟨s.sp.val - 1, by omega⟩ })

/-! ### Keys -/

/-- The lowest pressed key (spec R213: "Scan key states in index order (0 upward)"). -/
def lowestPressed (keys : Vector Bool 16) : Option Key :=
  (List.finRange 16).find? (fun j => keys[j])

/-! ### Faults -/

/-- The numeric code of spec R231. -/
def FaultCause.code : FaultCause → Nat
  | .unimplementedOpcode _ => 1
  | .fetchOutOfRange _ => 2
  | .stackOverflow => 3
  | .stackUnderflow => 4
  | .memOutOfRange _ => 5
  | .keyIndexOutOfRange _ => 6

/-- The info column of spec R231. -/
def FaultCause.info : FaultCause → Option Nat
  | .unimplementedOpcode w => some w.toNat
  | .fetchOutOfRange pc => some pc.toNat
  | .stackOverflow => none
  | .stackUnderflow => none
  | .memOutOfRange a => some a
  | .keyIndexOutOfRange k => some k.toNat

/-- `fault <- record` (spec R236). -/
def State.latch (s : State) (r : FaultRecord) : State := { s with fault := some r }

/-- Taking a fault (spec R234, R235, R236): the whole effect is that the record is latched; nothing is saved, switched
or jumped to, and the core is halted. The outcome is the spec's `Fault(record, state')`. Nothing returns from it (R237). -/
def takeFault (r : FaultRecord) (s : State) : Result := .fault (.fatal r (s.latch r))

/-- `raise <Fault>(info)` in the execute stage of instruction `i` (spec R13, R232): PC is the instruction's address + 2
there (R72), and the fetched word is the instruction's own (DEDUCED, log 6). -/
def raise (i : Instr) (c : FaultCause) (s : State) : Result :=
  takeFault { cause := c, addr := s.pc - 2, word := some (encode i) } s

/-- UNIMPLEMENTED_OPCODE, raised by decode of the fetched word `w` after the PC advance (spec R76, R231, R234). -/
def raiseUnimplemented (w : Word) (s : State) : Result :=
  takeFault { cause := .unimplementedOpcode w, addr := s.pc - 2, word := some w } s

/-- FETCH_OUT_OF_RANGE, raised by fetch before the PC advance (spec R71, R231, R234). -/
def raiseFetch (s : State) : Result :=
  takeFault { cause := .fetchOutOfRange s.pc, addr := s.pc, word := none } s

end Sys2Proof.Machine
end

