-- ==== Sys2Proof/Machine/Operands.lean ====
section
/-! DEFINITION. The operand forms (spec R75, R167): NNN as a target or an index, the indexed target, the data address through I, sprite coordinates, the key index, and the digits of the BCD converter. -/

namespace Sys2Proof.Machine

/-- `zext_16(NNN)` (spec R12, R75), where NNN meets PC or I. -/
def zext16 (nnn : Addr) : Word := nnn.setWidth 16

/-- The target of BNNN, V[0] + NNN as an exact sum (spec R105). -/
def indexedTarget (s : State) (nnn : Addr) : Word :=
  BitVec.ofNat 16 ((s.getV 0).toNat + nnn.toNat)

/-- The address of the first byte of every data access, I as an exact integer (spec R52, R167). -/
def dataAddress (s : State) : Nat := s.i.toNat

/-- FX1E's sum, (I + V[X]) mod 65536 (spec R161). -/
def indexSum (s : State) (x : Reg) : Word :=
  BitVec.ofNat 16 (s.i.toNat + (s.getV x).toNat)

/-- FX29's product, V[X] * 5, for every V[X] (spec R162; conflict C4). -/
def glyphAddress (s : State) (x : Reg) : Word :=
  BitVec.ofNat 16 ((s.getV x).toNat * 5)

/-- `x0 <- V[X] mod 64` (spec R191). -/
def spriteColumn (s : State) (x : Reg) : Fin 64 :=
  ⟨(s.getV x).toNat % 64, Nat.mod_lt _ (by decide)⟩

/-- `y0 <- V[Y] mod 32` (spec R191). -/
def spriteRow (s : State) (y : Reg) : Fin 32 :=
  ⟨(s.getV y).toNat % 32, Nat.mod_lt _ (by decide)⟩

/-- The key V[X] names; `none` where V[X] > 15 and KEY_INDEX_OUT_OF_RANGE is raised (spec R210, R211; D8). -/
def keyIndex (s : State) (x : Reg) : Option Key :=
  if h : (s.getV x).toNat < 16 then some ⟨(s.getV x).toNat, h⟩ else none

/-- `BCD(v)` of spec R163: hundreds, tens, ones. -/
def bcdDigits (b : Byte) : List Byte :=
  [BitVec.ofNat 8 (b.toNat / 100), BitVec.ofNat 8 (b.toNat / 10 % 10), BitVec.ofNat 8 (b.toNat % 10)]

end Sys2Proof.Machine
end

