-- ==== Sys2Proof/Machine/Flags.lean ====
section
/-! DEFINITION. The ALU's results and the flag each one gives VF (spec R31, R130, R131, R140, R142). -/

namespace Sys2Proof.Machine

/-- A condition as the byte VF receives, 1 or 0. -/
def flagByte (c : Bool) : Byte := if c then 1 else 0

/-- The sum mod 256 (spec R130). -/
def sumByte (a b : Byte) : Byte := BitVec.ofNat 8 (a.toNat + b.toNat)

/-- The difference mod 256, wrapping as two's complement (spec R130). -/
def differenceByte (a b : Byte) : Byte := BitVec.ofInt 8 ((a.toNat : Int) - (b.toNat : Int))

/-- Carry (spec R138, R140): the exact sum exceeds 255. -/
def carryFlag (a b : Byte) : Byte := flagByte (decide (a.toNat + b.toNat > 255))

/-- No borrow (spec R139, R140, R144): the minuend `a` is at least the subtrahend `b`. -/
def noBorrowFlag (a b : Byte) : Byte := flagByte (decide (a.toNat ≥ b.toNat))

/-- The byte shifted right by one, a zero entering at bit 7 (spec R142, R143). -/
def shiftRightOne (a : Byte) : Byte := a >>> 1

/-- The byte shifted left by one, a zero entering at bit 0 (spec R142, R145). -/
def shiftLeftOne (a : Byte) : Byte := a <<< 1

/-- The bit a right shift moves out, the old bit 0 (spec R143). -/
def shiftedOutRight (a : Byte) : Byte := flagByte (a.getLsbD 0)

/-- The bit a left shift moves out, the old bit 7 (spec R145). -/
def shiftedOutLeft (a : Byte) : Byte := flagByte (a.getLsbD 7)

end Sys2Proof.Machine
end

