-- ==== Sys2Proof/Machine/Alu.lean ====
section
/-! DEFINITION. Register loads, the ALU and the random byte (spec 42_alu.md). Operands are read before any write, the result goes to V[X] first and the flag to VF last (R131). -/

namespace Sys2Proof.Machine

/-- 6XNN: `V[X] <- NN` (R132). -/
def execLdVxNn (x : Reg) (nn : Byte) (s : State) : Result := .next (s.setV x nn)

/-- 7XNN: `V[X] <- (V[X] + NN) mod 256`, no flag (R133). -/
def execAddVxNn (x : Reg) (nn : Byte) (s : State) : Result := .next (s.setV x (sumByte (s.getV x) nn))

/-- 8XY0: `V[X] <- V[Y]` (R134). -/
def execLdVxVy (x y : Reg) (s : State) : Result := .next (s.setV x (s.getV y))

/-- 8XY1: `V[X] <- V[X] | V[Y]` (R135). -/
def execOr (x y : Reg) (s : State) : Result := .next (s.setV x (s.getV x ||| s.getV y))

/-- 8XY2: `V[X] <- V[X] & V[Y]` (R136). -/
def execAnd (x y : Reg) (s : State) : Result := .next (s.setV x (s.getV x &&& s.getV y))

/-- 8XY3: `V[X] <- V[X] ^ V[Y]` (R137). -/
def execXor (x y : Reg) (s : State) : Result := .next (s.setV x (s.getV x ^^^ s.getV y))

/-- 8XY4: add, VF = carry (R138). -/
def execAddVxVy (x y : Reg) (s : State) : Result :=
  .next (s.setVFlag x (sumByte (s.getV x) (s.getV y)) (carryFlag (s.getV x) (s.getV y)))

/-- 8XY5: V[X] - V[Y], VF = no borrow (R139). -/
def execSub (x y : Reg) (s : State) : Result :=
  .next (s.setVFlag x (differenceByte (s.getV x) (s.getV y)) (noBorrowFlag (s.getV x) (s.getV y)))

/-- 8XY6: shift right one, VF = old bit 0; Y is not read (R142, R143). -/
def execShr (x : Reg) (s : State) : Result :=
  .next (s.setVFlag x (shiftRightOne (s.getV x)) (shiftedOutRight (s.getV x)))

/-- 8XY7: V[Y] - V[X], VF = no borrow (R144). -/
def execSubn (x y : Reg) (s : State) : Result :=
  .next (s.setVFlag x (differenceByte (s.getV y) (s.getV x)) (noBorrowFlag (s.getV y) (s.getV x)))

/-- 8XYE: shift left one, VF = old bit 7; Y is not read (R142, R145). -/
def execShl (x : Reg) (s : State) : Result :=
  .next (s.setVFlag x (shiftLeftOne (s.getV x)) (shiftedOutLeft (s.getV x)))

/-- CXNN: `V[X] <- rnd & NN` with a free byte `rnd` (R146). -/
def execRnd (x : Reg) (nn : Byte) (s : State) : Result := .next (s.draw.2.setV x (s.draw.1 &&& nn))

end Sys2Proof.Machine
end

