-- ==== Sys2Proof/Machine/Control.lean ====
section
/-! DEFINITION. The no-op, control transfers and register skips (spec 41_control.md). On entry PC is the instruction's address + 2 (R72). -/

namespace Sys2Proof.Machine

/-- 0000 (R100). -/
def execNop (s : State) : Result := .next s

/-- 00EE: `PC <- Pop()`, or STACK_UNDERFLOW (R102, R103). -/
def execRet (s : State) : Result :=
  match s.pop with
  | none => raise .ret .stackUnderflow s
  | some (target, t) => .next (t.setPc target)

/-- 1NNN: `PC <- zext_16(NNN)` (R104). -/
def execJp (nnn : Addr) (s : State) : Result := .next (s.setPc (zext16 nnn))

/-- BNNN: `PC <- V[0] + NNN`, the exact sum (R105). -/
def execJpV0 (nnn : Addr) (s : State) : Result := .next (s.setPc (indexedTarget s nnn))

/-- 2NNN: `Push(PC); PC <- zext_16(NNN)`, or STACK_OVERFLOW (R101, R106). -/
def execCall (nnn : Addr) (s : State) : Result :=
  match s.push s.pc with
  | none => raise (.call nnn) .stackOverflow s
  | some t => .next (t.setPc (zext16 nnn))

/-- 3XNN (R108). -/
def execSeVxNn (x : Reg) (nn : Byte) (s : State) : Result := .next (s.skipIf (s.getV x == nn))

/-- 4XNN (R109). -/
def execSneVxNn (x : Reg) (nn : Byte) (s : State) : Result := .next (s.skipIf (s.getV x != nn))

/-- 5XY0 (R110). -/
def execSeVxVy (x y : Reg) (s : State) : Result := .next (s.skipIf (s.getV x == s.getV y))

/-- 9XY0 (R111). -/
def execSneVxVy (x y : Reg) (s : State) : Result := .next (s.skipIf (s.getV x != s.getV y))

end Sys2Proof.Machine
end

