-- ==== Sys2Proof/Machine/Sprite.lean ====
section
/-! DEFINITION. The screen and the sprite drawing unit with its collision detector (spec R34, R190-R194). -/

namespace Sys2Proof.Machine

/-- `screen(x, y)` (spec R13, R34). -/
def Screen.pixel (p : Screen) (x : Fin 64) (y : Fin 32) : Bool := (p[y])[x]

/-- `screen(x, y) <- not screen(x, y)` (spec R191). -/
def Screen.toggle (p : Screen) (x : Fin 64) (y : Fin 32) : Screen :=
  p.set y ((p[y]).set x (!(p[y])[x]))

/-- Every cell false (spec R190). -/
def blankScreen : Screen := Vector.replicate 32 (Vector.replicate 64 false)

/-- The screen and the collision accumulator while a sprite is drawn (spec R192). -/
structure Canvas where
  /-- The screen so far. -/
  screen : Screen
  /-- Whether a set cell has been toggled so far. -/
  collision : Bool
  deriving DecidableEq, Repr

/-- One set sprite bit at (x, y): note a collision if the cell is set, then toggle it (spec R191). -/
def Canvas.plot (c : Canvas) (x : Fin 64) (y : Fin 32) : Canvas :=
  { screen := Screen.toggle c.screen x y, collision := c.collision || Screen.pixel c.screen x y }

/-- Column `x0 + c`, wrapping at the right edge (spec R191). -/
def wrapColumn (x0 : Fin 64) (c : Nat) : Fin 64 := ⟨(x0.val + c) % 64, Nat.mod_lt _ (by decide)⟩

/-- Row `y0 + r`, wrapping at the bottom edge (spec R191). -/
def wrapRow (y0 : Fin 32) (r : Nat) : Fin 32 := ⟨(y0.val + r) % 32, Nat.mod_lt _ (by decide)⟩

/-- Bit `c` of a sprite row counted from the left, bit 7 being the leftmost column (spec R191; D14, PRESUMED, log 10). -/
def spriteBit (row : Byte) (c : Nat) : Bool := row.getLsbD (7 - c)

/-- Draw one row of 8 columns at (x0, y), c = 0..7 (spec R191). -/
def Canvas.drawRow (cv : Canvas) (x0 : Fin 64) (y : Fin 32) (row : Byte) : Canvas :=
  (List.range 8).foldl (fun cv c => if spriteBit row c then cv.plot (wrapColumn x0 c) y else cv) cv

/-- Draw the rows in order, the first of them being row `r` of the sprite (spec R191). -/
def Canvas.drawRows (cv : Canvas) (x0 : Fin 64) (y0 : Fin 32) (r : Nat) : List Byte → Canvas
  | [] => cv
  | row :: rows => (cv.drawRow x0 (wrapRow y0 r) row).drawRows x0 y0 (r + 1) rows

/-- Draw a sprite at (x0, y0) on a screen: the collision accumulator starts cleared (spec R191, R192). -/
def drawSprite (p : Screen) (x0 : Fin 64) (y0 : Fin 32) (rows : List Byte) : Canvas :=
  Canvas.drawRows { screen := p, collision := false } x0 y0 0 rows

end Sys2Proof.Machine
end

