-- ==== Sys2Proof/Machine/Display.lean ====
section
/-! DEFINITION. Clearing the screen and drawing sprites (spec 44_display.md). -/

namespace Sys2Proof.Machine

/-- 00E0: every cell false; VF is not written (R190). -/
def execCls (s : State) : Result := .next (s.setScreen blankScreen)

/-- DXYN: draw the N rows at I.. I + N - 1, VF = collision last, or MEM_OUT_OF_RANGE (R191, R192). The coordinates are
read before VF is written. N = 0 reads no memory and sets VF = 0 (conflict C2). -/
def execDrw (x y : Reg) (n : Fin 16) (s : State) : Result :=
  match s.mem.readBlock (dataAddress s) n.val with
  | .error a => raise (.drw x y n) (.memOutOfRange a) s
  | .ok rows =>
    .next ((s.setScreen (drawSprite s.screen (spriteColumn s x) (spriteRow s y) rows).screen).setV regF
      (flagByte (drawSprite s.screen (spriteColumn s x) (spriteRow s y) rows).collision))

end Sys2Proof.Machine
end

