-- ==== Sys2Proof/Machine/IndexMemory.lean ====
section
/-! DEFINITION. The index register, the BCD store and the block transfers (spec 43_index_memory.md). Addresses are checked before the first write (R234); I is not changed by a transfer (R167). -/

namespace Sys2Proof.Machine

/-- ANNN: `I <- zext_16(NNN)` (R160). -/
def execLdINnn (nnn : Addr) (s : State) : Result := .next (s.setI (zext16 nnn))

/-- FX1E: `I <- (I + V[X]) mod 65536`, no flag (R161). -/
def execAddIVx (x : Reg) (s : State) : Result := .next (s.setI (indexSum s x))

/-- FX29: `I <- V[X] * 5` (R162). -/
def execLdFVx (x : Reg) (s : State) : Result := .next (s.setI (glyphAddress s x))

/-- FX33: the BCD digits of V[X] to I, I + 1, I + 2, or MEM_OUT_OF_RANGE (R163, R164). -/
def execLdBVx (x : Reg) (s : State) : Result :=
  match s.mem.writeBlock (dataAddress s) (bcdDigits (s.getV x)) with
  | .error a => raise (.ldBVx x) (.memOutOfRange a) s
  | .ok m => .next (s.setMem m)

/-- FX55: V[0]..V[X] to I.. I + X, or MEM_OUT_OF_RANGE (R165). -/
def execLdMemVx (x : Reg) (s : State) : Result :=
  match s.mem.writeBlock (dataAddress s) (s.regsUpTo x) with
  | .error a => raise (.ldMemVx x) (.memOutOfRange a) s
  | .ok m => .next (s.setMem m)

/-- FX65: V[0]..V[X] from I.. I + X, or MEM_OUT_OF_RANGE (R166). -/
def execLdVxMem (x : Reg) (s : State) : Result :=
  match s.mem.readBlock (dataAddress s) (x.val + 1) with
  | .error a => raise (.ldVxMem x) (.memOutOfRange a) s
  | .ok bytes => .next (s.setRegs (setRegsFrom s.v 0 bytes))

end Sys2Proof.Machine
end

