-- ==== Sys2Proof/Machine/KeysTimers.lean ====
section
/-! DEFINITION. Key skips, the key wait and the timer moves (spec 45_keys_timers.md). -/

namespace Sys2Proof.Machine

/-- EX9E: skip if key V[X] is pressed, or KEY_INDEX_OUT_OF_RANGE (R210). -/
def execSkp (x : Reg) (s : State) : Result :=
  match keyIndex s x with
  | none => raise (.skp x) (.keyIndexOutOfRange (s.getV x)) s
  | some k => .next (s.skipIf (s.keys[k]))

/-- EXA1: skip if key V[X] is released, or KEY_INDEX_OUT_OF_RANGE (R211). -/
def execSknp (x : Reg) (s : State) : Result :=
  match keyIndex s x with
  | none => raise (.sknp x) (.keyIndexOutOfRange (s.getV x)) s
  | some k => .next (s.skipIf (!s.keys[k]))

/-- FX07: `V[X] <- DT` (R212). -/
def execLdVxDt (x : Reg) (s : State) : Result := .next (s.setV x s.dt)

/-- FX0A: the lowest pressed key to V[X]; with no key pressed PC goes back to this instruction (R213). -/
def execLdVxK (x : Reg) (s : State) : Result :=
  match lowestPressed s.keys with
  | some j => .next (s.setV x (BitVec.ofNat 8 j.val))
  | none => .next s.rewind

/-- FX15: `DT <- V[X]` (R214). -/
def execLdDtVx (x : Reg) (s : State) : Result := .next (s.setDt (s.getV x))

/-- FX18: `ST <- V[X]` (R215). -/
def execLdStVx (x : Reg) (s : State) : Result := .next (s.setSt (s.getV x))

end Sys2Proof.Machine
end

