-- ==== Sys2Proof/Machine/Cycle.lean ====
section
/-! DEFINITION. The instruction cycle (spec R70): fetch, PC advance, decode, execute. -/

namespace Sys2Proof.Machine

/-- Fetch (spec R54, R71): the byte at PC is bits 15:8 and the byte at PC + 1 bits 7:0; `none` where PC + 1, an exact
integer, is 4096 or more and FETCH_OUT_OF_RANGE is raised. An odd PC fetches like any other (R56). -/
def fetchWord (s : State) : Option Word :=
  match s.mem.read s.pc.toNat, s.mem.read (s.pc.toNat + 1) with
  | some hi, some lo => some (wordOfBytes hi lo)
  | _, _ => none

/-- Decode the fetched word and execute it, in the state after the PC advance (spec R76, R81). -/
def decodeExecute (w : Word) (s : State) : Result :=
  match decodeWord w with
  | some i => exec i s
  | none => raiseUnimplemented w s

/-- One pass through the cycle, the fault latch being clear (spec R70). -/
def fetchDecodeExecute (s : State) : Result :=
  match fetchWord s with
  | none => raiseFetch s
  | some w => decodeExecute w s.advance

/-- STEP (spec R37, R70): enabled only while no fault is latched (R44). The draw of R37 is taken by CXNN itself (log 5). -/
def stepOnce (s : State) : Result :=
  match s.fault with
  | some record => .refused (.coreHalted record)
  | none => fetchDecodeExecute s

/-- Store the two bytes of a word where the next fetch reads them (spec R54). -/
def placeWord (s : State) (w : Word) : State :=
  s.setMem (s.mem.writeFrom s.pc.toNat (bytesOfWord w))

end Sys2Proof.Machine
end

