-- ==== Sys2Proof/Machine/Step.lean ====
section
/-! DEFINITION. The step function, and how an instruction is placed to be run next. -/

namespace Sys2Proof.Machine

/-- STEP of spec R70, with the three outcomes of Host.Core: `Ok(state')` is `next`, `Fault(record, state')` is `fault`
(R37), and a STEP that is not enabled is `refused` (R44). -/
def step (s : State) : Host.Outcome State Fault Refusal := stepOnce s

/-- `s` with the instruction word whose bits are `w` stored, big-endian, at PC, where `step` fetches (log 8). Bits at or
above `nbits` are 0. It stands for the host's HOST_WRITE_MEM of the two bytes (spec R42, R262). -/
def State.withFetchWord (s : State) (nbits w : Nat) : State :=
  placeWord s (BitVec.ofNat 16 (w % 2 ^ nbits))

end Sys2Proof.Machine
end

