-- ==== Sys2Proof/Machine/HostOps.lean ====
section
/-! DEFINITION. TICK and the host's operations on the state (spec R38-R42, R240-R242, R262). -/

namespace Sys2Proof.Machine

/-- A timer's countdown by one, clamped at 0 (spec R240). -/
def countDown (t : Byte) : Byte := if t = 0 then 0 else t - 1

/-- `tone_stop` (spec R241): this TICK takes ST from 1 to 0. -/
def toneStop (s : State) : Bool := s.st == 1

/-- TICK's effect on the timers (spec R240). -/
def State.countedDown (s : State) : State := (s.setDt (countDown s.dt)).setSt (countDown s.st)

/-- TICK (spec R38, R240), with its output `tone_stop`: enabled only while no fault is latched (R44; D23). -/
def tick (s : State) : Host.Outcome (State × Bool) Fault Refusal :=
  match s.fault with
  | some record => .refused (.coreHalted record)
  | none => .next (s.countedDown, toneStop s)

/-- RESET (spec R39, R260, R261): the baseline whatever the prior state was. FONT is the machine's own (log 3). The
model's own field `draws` goes on, so that the random bytes after a RESET are not those before it again (log 5). -/
def hostReset (s : State) : State := { State.reset with draws := s.draws }

/-- HOST_SET_KEY(k, b) (spec R40). -/
def hostSetKey (k : Key) (b : Bool) (s : State) : State := { s with keys := s.keys.set k b }

/-- What HOST_READ returns (spec R41). -/
structure HostView where
  /-- The screen. -/
  screen : Screen
  /-- The sound timer. -/
  st : Byte
  /-- The fault latch. -/
  fault : Option FaultRecord
  deriving DecidableEq, Repr

/-- HOST_READ (spec R41); it changes nothing. -/
def hostRead (s : State) : HostView := { screen := s.screen, st := s.st, fault := s.fault }

/-- "tone should be playing" (spec R41, R241): ST is not 0. -/
def HostView.tonePlaying (view : HostView) : Bool := view.st != 0

/-- The pixel at the host's flat index `y * 64 + x` (spec R34; D15). -/
def HostView.flatPixel (view : HostView) (k : Fin 2048) : Bool :=
  Screen.pixel view.screen ⟨k.val % 64, Nat.mod_lt _ (by decide)⟩ ⟨k.val / 64, by omega⟩

/-- HOST_WRITE_MEM(a, v) (spec R42). -/
def hostWriteMem (a : Fin 4096) (b : Byte) (s : State) : State := s.setMem (s.mem.write a b)

/-- The ROM load (spec R42, R262): the bytes to 0x200, 0x201, ..; `none` for a ROM longer than 3584 bytes, which the
interface does not admit (log 23). -/
def loadRom (rom : List Byte) (s : State) : Option State :=
  if rom.length ≤ 3584 then some (s.setMem (s.mem.writeFrom 0x200 rom)) else none

/-- HOST_SET_KEY for each entry in order. -/
def hostSetKeys : List (Key × Bool) → State → State
  | [], s => s
  | kb :: rest, s => hostSetKeys rest (hostSetKey kb.1 kb.2 s)

/-- A launch up to its first STEP (spec R262): RESET of a new machine, the ROM load, any key settings. -/
def launch (rom : List Byte) (presses : List (Key × Bool)) : Option State :=
  (loadRom rom State.reset).map (hostSetKeys presses)

end Sys2Proof.Machine
end

