-- ==== Sys2Proof/Machine/Block.lean ====
section
/-! DEFINITION. The block as its operations (spec R36, R43, R270): the host may perform any one of them at a time, in any order, each to completion. -/

namespace Sys2Proof.Machine

/-- The block's operations (spec R36). -/
inductive Op where
  /-- RESET (R39, R260). -/
  | reset
  /-- STEP (R37, R70). -/
  | step
  /-- TICK (R38, R240). -/
  | tick
  /-- HOST_SET_KEY (R40). -/
  | setKey (k : Key) (b : Bool)
  /-- HOST_READ (R41). -/
  | read
  /-- HOST_WRITE_MEM (R42). -/
  | writeMem (a : Fin 4096) (b : Byte)
  deriving DecidableEq, Repr

/-- What an operation returns to the host beside the state. -/
inductive OpOutput where
  /-- Nothing. -/
  | silent
  /-- STEP's fault record (R37). -/
  | faulted (record : FaultRecord)
  /-- TICK's `tone_stop` (R38). -/
  | toneStop (b : Bool)
  /-- HOST_READ's view (R41). -/
  | view (w : HostView)
  deriving DecidableEq, Repr

/-- Perform STEP: the next state, or the halted state with its record (spec R37, R236). -/
def performStep (s : State) : Option (State × OpOutput) :=
  match step s with
  | .next t => some (t, .silent)
  | .fault (.fatal record after) => some (after, .faulted record)
  | .refused _ => none

/-- Perform TICK. -/
def performTick (s : State) : Option (State × OpOutput) :=
  match tick s with
  | .next r => some (r.1, .toneStop r.2)
  | .fault _ => none
  | .refused _ => none

/-- Perform an operation; `none` where it is not enabled (spec R44). -/
def perform (op : Op) (s : State) : Option (State × OpOutput) :=
  match op with
  | .reset => some (hostReset s, .silent)
  | .step => performStep s
  | .tick => performTick s
  | .setKey k b => some (hostSetKey k b s, .silent)
  | .read => some (s, .view (hostRead s))
  | .writeMem a b => some (hostWriteMem a b s, .silent)

/-- Perform operations one after another (spec R43); `none` where one is not enabled. -/
def performAll : List Op → State → Option State
  | [], s => some s
  | op :: ops, s =>
    match perform op s with
    | some (t, _) => performAll ops t
    | none => none

/-- The states some finite interleaving of operations reaches from RESET (spec R43, R48, R270). -/
def Reachable (s : State) : Prop := ∃ ops : List Op, performAll ops State.reset = some s

end Sys2Proof.Machine
end

