-- ==== Sys2Proof/Safety.lean ====
section
/-! DEFINITION. The terms claims use: canonical memory, the invariant of every reachable state, which instructions may write what, which faults an instruction has, and the end of a run. -/

namespace Sys2Proof.Machine

/-- The canonical form of memory (log 4): addresses strictly rising, each below 4096, and no entry equal to what an
unlisted address reads as. -/
abbrev Memory.wf (m : Memory) : Prop :=
  m.cells.Pairwise (fun c d => c.1 < d.1) ∧ ∀ c ∈ m.cells, c.1 < 4096 ∧ c.2 ≠ Memory.resetByte c.1

/-- What every reachable state satisfies beyond its types (spec R25, R48): memory is canonical, so it holds cells of
0x000-0xFFF only; PC is at most 0x10FE; a return address is at most 0x1000. The other bounds of R48 are the types of State. -/
structure State.Inv (s : State) : Prop where
  /-- Memory is in canonical form. -/
  mem_wf : s.mem.wf
  /-- PC is at most 0x10FE (R25). -/
  pc_le : s.pc.toNat ≤ 0x10FE
  /-- Every stack slot is at most 0x1000: CALL pushes an address + 2 with the address at most 0xFFE. -/
  stack_le : ∀ k : Fin 16, (s.stack[k]).toNat ≤ 0x1000

/-- The instruction writes V[j] when it completes (spec R23). FX0A with no key pressed writes none. -/
def writesV (i : Instr) (j : Reg) : Bool :=
  match i with
  | .ldVxNn x _ | .addVxNn x _ | .ldVxVy x _ | .orVxVy x _ | .andVxVy x _ | .xorVxVy x _ => x == j
  | .addVxVy x _ | .sub x _ | .shr x _ | .subn x _ | .shl x _ => x == j || j == 15
  | .rnd x _ | .ldVxDt x | .ldVxK x => x == j
  | .ldVxMem x => decide (j ≤ x)
  | .drw _ _ _ => j == 15
  | .nop | .cls | .ret | .jp _ | .call _ | .seVxNn _ _ | .sneVxNn _ _ | .seVxVy _ _ | .sneVxVy _ _ => false
  | .ldINnn _ | .jpV0 _ | .skp _ | .sknp _ | .ldDtVx _ | .ldStVx _ | .addIVx _ | .ldFVx _ | .ldBVx _ | .ldMemVx _ => false

/-- The fault an instruction's own check raises in the execute stage, in state `s` (spec R231, R233): which one and its
info; `none` where the instruction completes. -/
def faultOf (i : Instr) (s : State) : Option FaultCause :=
  match i with
  | .call _ => if s.sp.val = 16 then some .stackOverflow else none
  | .ret => if s.sp.val = 0 then some .stackUnderflow else none
  | .drw _ _ n =>
    if n.val ≠ 0 ∧ 4096 < s.i.toNat + n.val then some (.memOutOfRange (max s.i.toNat 4096)) else none
  | .ldBVx _ => if 4096 < s.i.toNat + 3 then some (.memOutOfRange (max s.i.toNat 4096)) else none
  | .ldMemVx x | .ldVxMem x =>
    if 4096 ≤ s.i.toNat + x.val then some (.memOutOfRange (max s.i.toNat 4096)) else none
  | .skp x | .sknp x => if 15 < (s.v[x]).toNat then some (.keyIndexOutOfRange s.v[x]) else none
  | .nop | .cls | .jp _ | .seVxNn _ _ | .sneVxNn _ _ | .seVxVy _ _ | .sneVxVy _ _ | .ldVxNn _ _ | .addVxNn _ _ => none
  | .ldVxVy _ _ | .orVxVy _ _ | .andVxVy _ _ | .xorVxVy _ _ | .addVxVy _ _ | .sub _ _ | .shr _ _ | .subn _ _ | .shl _ _ => none
  | .ldINnn _ | .jpV0 _ | .rnd _ _ | .ldVxDt _ | .ldVxK _ | .ldDtVx _ | .ldStVx _ | .addIVx _ | .ldFVx _ => none

/-- The pixel (x, y) lies under a set bit of the sprite whose rows are the `n` bytes at `s.i`, drawn at (x0, y0) with
wrapping at both edges (spec R191). -/
def underSprite (s : State) (x0 y0 n : Nat) (x : Fin 64) (y : Fin 32) : Prop :=
  ∃ r c : Nat, r < n ∧ c < 8 ∧ x.val = (x0 + c) % 64 ∧ y.val = (y0 + r) % 32 ∧
    (s.mem.byteAt (s.i.toNat + r)).getLsbD (7 - c) = true

/-- `exec i s` completes and changes nothing but V: V[x] becomes `b` and every other register keeps its value, every
byte of memory among the rest. -/
def WritesRegister (i : Instr) (s : State) (x : Reg) (b : Byte) : Prop :=
  ∃ t : State, exec i s = .next t ∧ t = { s with v := t.v } ∧ t.getV x = b ∧
    (∀ j : Reg, j ≠ x → t.getV j = s.getV j) ∧ ∀ a : Nat, t.mem.read a = s.mem.read a

/-- `exec i s` completes and changes nothing but V: VF becomes `flag`, V[x] becomes `result` unless x = F, and every
other register keeps its value (spec R131), every byte of memory among the rest. -/
def WritesResultAndFlag (i : Instr) (s : State) (x : Reg) (result flag : Nat) : Prop :=
  ∃ t : State, exec i s = .next t ∧ t = { s with v := t.v } ∧ (t.getV 15).toNat = flag ∧
    (x ≠ 15 → (t.getV x).toNat = result) ∧ (∀ j : Reg, j ≠ x → j ≠ 15 → t.getV j = s.getV j) ∧
    ∀ a : Nat, t.mem.read a = s.mem.read a

/-- `exec i s` completes and changes nothing but PC, which becomes `target`. -/
def MovesPc (i : Instr) (s : State) (target : Nat) : Prop :=
  ∃ t : State, exec i s = .next t ∧ t = { s with pc := t.pc } ∧ t.pc.toNat = target ∧
    ∀ a : Nat, t.mem.read a = s.mem.read a

/-- `exec i s` completes and changes nothing but PC, which is two bytes further if `cond` holds and as it was if not
(spec R82). -/
def SkipsWhen (i : Instr) (s : State) (cond : Prop) : Prop :=
  ∃ t : State, exec i s = .next t ∧ t = { s with pc := t.pc } ∧ (cond → t.pc = s.pc + 2) ∧ (¬ cond → t.pc = s.pc) ∧
    ∀ a : Nat, t.mem.read a = s.mem.read a

/-- `exec i s` completes and changes nothing but I, which becomes `value`. -/
def MovesIndex (i : Instr) (s : State) (value : Nat) : Prop :=
  ∃ t : State, exec i s = .next t ∧ t = { s with i := t.i } ∧ t.i.toNat = value ∧
    ∀ a : Nat, t.mem.read a = s.mem.read a

/-- `exec i s` stops with the fault of cause `c`: the record names the instruction's address and word, and the halted
state is `s` with the record latched and nothing else changed (spec R232, R234, R236). -/
def HaltsWith (i : Instr) (s : State) (c : FaultCause) : Prop :=
  ∃ r : FaultRecord, r.cause = c ∧ r.addr = s.pc - 2 ∧ r.word = some (encode i) ∧
    exec i s = .fault (.fatal r { s with fault := some r })

/-- The spin end of a run (spec R268): no fault is latched and the word at PC is a jump to itself. -/
def SpinEnd (s : State) : Prop :=
  s.fault = none ∧ ∃ nnn : Addr, fetchWord s = some (encode (.jp nnn)) ∧ nnn.toNat = s.pc.toNat

/-- A run of STEPs alone: `k` STEPs from `s`, with no other operation between them, all complete and leave `t`. -/
def StepsOnly (k : Nat) (s t : State) : Prop :=
  Host.Core.run { State := State, Fault := Fault, Refusal := Refusal, step := step, reset := State.reset } k s = .next t

/-- The state is faulted (spec R44, R236): it is never a good end. -/
def Faulted (s : State) : Prop := s.fault ≠ none

/-- The fuel end of a run (spec R268): the host has made exactly `k` STEPs from `s` to `t`, with any TICKs and host
operations before, between and after them (R262, R270). A RESET would start a new launch, and a run is one launch (R270).
A faulted state is never final (R44, R236), so `t` is not faulted: a run whose last STEP faults is no fuel end. -/
def FuelEnd (k : Nat) (s t : State) : Prop :=
  ∃ ops : List Op, ops.count .step = k ∧ Op.reset ∉ ops ∧ performAll ops s = some t ∧ ¬ Faulted t

/-- Nothing in `s` and `t` differs but the stack slots at or above SP, which no program can observe (spec R46; D17). -/
def SameButStaleSlots (s t : State) : Prop :=
  t = { s with stack := t.stack } ∧ ∀ k : Fin 16, k.val < s.sp.val → s.stack[k] = t.stack[k]

end Sys2Proof.Machine
end

