-- ==== Sys2Proof/Certificates/Slice0/Obligations.lean ====
section
/-! DEFINITION. The statements for the provers, each about every state and every operand unless it says otherwise. The terms they use (WritesRegister, HaltsWith, State.Inv, ..) are in Safety.lean. -/

open Sys2Proof Sys2Proof.Machine

/-! ### Encoding -/

/-- Every instruction, with every operand at every value its field admits, decodes from its own word (R74, R75, R76). -/
def Obligations.EncodeThenDecode : Prop :=
  ∀ i : Instr, decodeWord (encode i) = some i

/-- A word that decodes is the word of the instruction it decodes to: no bit is dropped, the ignored Y of 8XY6 and 8XYE
included (log 7). -/
def Obligations.DecodeThenEncode : Prop :=
  ∀ (w : Word) (i : Instr), decodeWord w = some i → encode i = w

/-- The decoder, written from the case analysis of R76, accepts exactly the words some row of opcode_table.json covers,
and answers the instruction of that row. -/
def Obligations.DecoderAcceptsExactlyTheTable : Prop :=
  (∀ w : Word, (decodeWord w).isSome = wordWellFormed w) ∧
  ∀ (w : Word) (i : Instr), decodeWord w = some i →
    ∃ r ∈ opcodeTable, r.covers w = true ∧ r.mnemonic = i.mnemonic

/-- R77: the 35 patterns are pairwise disjoint, and so the order of the decoder's tests does not matter: its answer is
the instruction of whichever row covers the word. -/
def Obligations.PatternsAreDisjoint : Prop :=
  opcodeTable.length = 35 ∧
  (∀ (w : Word) (r q : OpcodeRow), r ∈ opcodeTable → q ∈ opcodeTable →
    r.covers w = true → q.covers w = true → r = q) ∧
  ∀ (w : Word) (r : OpcodeRow), r ∈ opcodeTable → r.covers w = true →
    ∃ i : Instr, decodeWord w = some i ∧ i.mnemonic = r.mnemonic

/-- The five lists of R78: which words are unimplemented, and no other. -/
def Obligations.UnimplementedWordsAreThoseListed : Prop :=
  ∀ w : Word, decodeWord w = none ↔
    (w.toNat ≤ 0x0FFF ∧ w.toNat ≠ 0x0000 ∧ w.toNat ≠ 0x00E0 ∧ w.toNat ≠ 0x00EE) ∨
    ((w.toNat / 4096 = 0x5 ∨ w.toNat / 4096 = 0x9) ∧ w.toNat % 16 ≠ 0) ∨
    (w.toNat / 4096 = 0x8 ∧ w.toNat % 16 ∈ [0x8, 0x9, 0xA, 0xB, 0xC, 0xD, 0xF]) ∨
    (w.toNat / 4096 = 0xE ∧ w.toNat % 256 ∉ [0x9E, 0xA1]) ∨
    (w.toNat / 4096 = 0xF ∧ w.toNat % 256 ∉ [0x07, 0x0A, 0x15, 0x18, 0x1E, 0x29, 0x33, 0x55, 0x65])

/-- Words written out from the encodings of 30_encoding.md, one or more of every format, decode to what they stand for. -/
def Obligations.WorkedWordsDecode : Prop :=
  decodeWord 0x0000 = some .nop ∧ decodeWord 0x00E0 = some .cls ∧ decodeWord 0x00EE = some .ret ∧
  decodeWord 0x1ABC = some (.jp 0xABC) ∧ decodeWord 0x3342 = some (.seVxNn 3 0x42) ∧
  decodeWord 0x8F15 = some (.sub 15 1) ∧ decodeWord 0x8456 = some (.shr 4 5) ∧
  decodeWord 0xD012 = some (.drw 0 1 2) ∧ decodeWord 0xE59E = some (.skp 5) ∧
  decodeWord 0xF21E = some (.addIVx 2) ∧ decodeWord 0x5121 = none ∧ decodeWord 0x0123 = none

/-- The byte decoder (R54, R73): an instruction's two bytes, the high one first, decode to it and leave the bytes after
them; an unimplemented word and an incomplete one are rejected by name. -/
def Obligations.DecodeReadsTwoBytes : Prop :=
  (∀ (i : Instr) (rest : List Byte), decode (bytesOfWord (encode i) ++ rest) = .ok (i, rest)) ∧
  (∀ (w : Word) (rest : List Byte), decodeWord w = none →
    decode (bytesOfWord w ++ rest) = .error (.unimplementedOpcode w)) ∧
  ∀ b : Byte, decode [b] = .error .truncated

/-! ### The instruction cycle and the faults -/

/-- STEP runs the decoded instruction (R70, R72): when no fault is latched and the two bytes at PC, the first one the
high byte, decode to `i`, then STEP is the execution of `i` in the state with PC advanced by two. -/
def Obligations.StepRunsTheDecodedInstruction : Prop :=
  ∀ (s : State) (hi lo : Byte) (i : Instr), s.fault = none →
    s.mem.read s.pc.toNat = some hi → s.mem.read (s.pc.toNat + 1) = some lo →
    decodeWord (BitVec.ofNat 16 (hi.toNat * 256 + lo.toNat)) = some i →
    step s = exec i { s with pc := s.pc + 2 }

/-- R71: with PC + 1 at 4096 or above STEP faults with FETCH_OUT_OF_RANGE, changing nothing but the latch; otherwise the
fetched word is mem[PC] * 256 + mem[PC + 1], at an odd PC too. -/
def Obligations.FetchRule : Prop :=
  ∀ s : State,
    (s.fault = none → 4096 ≤ s.pc.toNat + 1 → ∃ r : FaultRecord,
      r = { cause := .fetchOutOfRange s.pc, addr := s.pc, word := none } ∧
      step s = .fault (.fatal r { s with fault := some r })) ∧
    (s.pc.toNat + 1 < 4096 → ∃ (w : Word) (hi lo : Byte), fetchWord s = some w ∧
      s.mem.read s.pc.toNat = some hi ∧ s.mem.read (s.pc.toNat + 1) = some lo ∧
      w.toNat = hi.toNat * 256 + lo.toNat)

/-- A fetched word that is no instruction (R76, R78): STEP faults with UNIMPLEMENTED_OPCODE, whose record names the
address and the word, in the state after the PC advance with nothing else changed (R234). -/
def Obligations.UnimplementedWordFaults : Prop :=
  ∀ (s : State) (w : Word), s.fault = none → fetchWord s = some w → decodeWord w = none →
    ∃ r : FaultRecord, r = { cause := .unimplementedOpcode w, addr := s.pc, word := some w } ∧
      step s = .fault (.fatal r { s with pc := s.pc + 2, fault := some r })

/-- R231 and R233 for the execute stage: in every state, an instruction completes exactly where `faultOf` names no
fault, and where it names one it stops with that fault and no other effect. No instruction is refused. -/
def Obligations.EveryInstructionCompletesOrFaults : Prop :=
  ∀ (i : Instr) (s : State),
    (faultOf i s = none → ∃ t : State, exec i s = .next t) ∧
    ∀ c : FaultCause, faultOf i s = some c → HaltsWith i s c

/-- R234, R236: the state a faulting STEP leaves is the state before it with the record latched and PC advanced by two,
PC unchanged for FETCH_OUT_OF_RANGE (code 2), and no other field changed. -/
def Obligations.FaultsArePrecise : Prop :=
  ∀ (s t : State) (r : FaultRecord), step s = .fault (.fatal r t) →
    t = { s with pc := if r.cause.code = 2 then s.pc else s.pc + 2, fault := some r }

/-- R232: a faulting STEP's record holds the address it was at, the fetched word (none for FETCH_OUT_OF_RANGE), and a
code and info as R231 lists them. -/
def Obligations.FaultRecordNamesTheInstruction : Prop :=
  ∀ (s t : State) (r : FaultRecord), step s = .fault (.fatal r t) →
    r.addr = s.pc ∧
    ((r.cause.code = 2 ∧ r.word = none ∧ r.cause.info = some s.pc.toNat) ∨
      ∃ w : Word, fetchWord s = some w ∧ r.word = some w ∧
        ((r.cause.code = 1 ∧ decodeWord w = none ∧ r.cause.info = some w.toNat) ∨
          ∃ i : Instr, decodeWord w = some i ∧ faultOf i s = some r.cause ∧ 3 ≤ r.cause.code ∧ r.cause.code ≤ 6 ∧
            (r.cause.code = 3 → ∃ nnn, i = .call nnn ∧ r.cause.info = none) ∧
            (r.cause.code = 4 → i = .ret ∧ r.cause.info = none) ∧
            (r.cause.code = 5 → r.cause.info = some (max s.i.toNat 4096) ∧
              ((∃ x y n, i = .drw x y n) ∨ ∃ x, i = .ldBVx x ∨ i = .ldMemVx x ∨ i = .ldVxMem x)) ∧
            (r.cause.code = 6 → ∃ x, (i = .skp x ∨ i = .sknp x) ∧ r.cause.info = some (s.getV x).toNat)))

/-- R44, R237, R240, R260: while a record is latched STEP and TICK are not enabled, RESET leaves the state that RESET
always leaves, and no other operation clears the latch. That `step` and `tick` answer the refusal coreHalted is the
model's choice (log 2); that nothing is said of `draws` after RESET follows from the model's own counter (log 5). -/
def Obligations.HaltedCoreLeavesOnlyByReset : Prop :=
  ∀ (s : State) (r : FaultRecord), s.fault = some r →
    step s = .refused (.coreHalted r) ∧ tick s = .refused (.coreHalted r) ∧
    perform .step s = none ∧ perform .tick s = none ∧
    (∃ t o, perform .reset s = some (t, o) ∧ t = { State.reset with draws := t.draws } ∧ t.fault = none) ∧
    ∀ (op : Op) (t : State) (o : OpOutput), perform op s = some (t, o) → op = .reset ∨ t.fault = some r

/-! ### Control transfer -/

/-- R100, R104, R105: 0000 changes nothing; 1NNN sets PC to NNN; BNNN sets PC to the exact sum V[0] + NNN. -/
def Obligations.NoOpAndJumps : Prop :=
  ∀ (s : State) (nnn : Addr),
    (decodeWord 0x0000 = some .nop ∧ exec .nop s = .next s) ∧
    (decodeWord (BitVec.ofNat 16 (0x1000 + nnn.toNat)) = some (.jp nnn) ∧ MovesPc (.jp nnn) s nnn.toNat) ∧
    (decodeWord (BitVec.ofNat 16 (0xB000 + nnn.toNat)) = some (.jpV0 nnn) ∧
      MovesPc (.jpV0 nnn) s ((s.getV 0).toNat + nnn.toNat))

/-- R101, R106: 2NNN pushes PC, the address after the CALL, in slot SP, raises SP by one and goes to NNN; every other
slot keeps its value; with SP = 16 it stops with STACK_OVERFLOW. -/
def Obligations.CallPushesReturnAddress : Prop :=
  ∀ (s : State) (nnn : Addr),
    decodeWord (BitVec.ofNat 16 (0x2000 + nnn.toNat)) = some (.call nnn) ∧
    (s.sp.val < 16 → ∃ t : State, exec (.call nnn) s = .next t ∧
      t = { s with pc := t.pc, sp := t.sp, stack := t.stack } ∧ t.pc.toNat = nnn.toNat ∧ t.sp.val = s.sp.val + 1 ∧
      (∀ k : Fin 16, t.stack[k] = if k.val = s.sp.val then s.pc else s.stack[k]) ∧
      ∀ a : Nat, t.mem.read a = s.mem.read a) ∧
    (s.sp.val = 16 → HaltsWith (.call nnn) s .stackOverflow)

/-- R102, R103: 00EE lowers SP by one and goes to the address in the slot it then points at; the slots keep their
values; with SP = 0 it stops with STACK_UNDERFLOW. -/
def Obligations.ReturnPopsAddress : Prop :=
  ∀ s : State,
    decodeWord 0x00EE = some .ret ∧
    (∀ k : Fin 16, s.sp.val = k.val + 1 → ∃ t : State, exec .ret s = .next t ∧
      t = { s with pc := t.pc, sp := t.sp } ∧ t.pc = s.stack[k] ∧ t.sp.val = k.val ∧
      ∀ a : Nat, t.mem.read a = s.mem.read a) ∧
    (s.sp.val = 0 → HaltsWith .ret s .stackUnderflow)

/-- A CALL and the RET that matches it come back to the instruction after the CALL with SP as it was; only the slot the
CALL used can differ (R46, R101-R103, R106). -/
def Obligations.CallThenReturnComesBack : Prop :=
  ∀ (s : State) (nnn : Addr), s.sp.val < 16 →
    ∃ t u : State, exec (.call nnn) s = .next t ∧ exec .ret t = .next u ∧
      u = { s with stack := u.stack } ∧ ∀ k : Fin 16, k.val ≠ s.sp.val → u.stack[k] = s.stack[k]

/-- R108-R111: 3XNN, 4XNN, 5XY0 and 9XY0 add 2 to PC exactly when their condition holds, and change nothing else. -/
def Obligations.RegisterSkips : Prop :=
  ∀ (s : State) (x y : Reg) (nn : Byte),
    (decodeWord (BitVec.ofNat 16 (0x3000 + x.val * 0x100 + nn.toNat)) = some (.seVxNn x nn) ∧
      SkipsWhen (.seVxNn x nn) s (s.getV x = nn)) ∧
    (decodeWord (BitVec.ofNat 16 (0x4000 + x.val * 0x100 + nn.toNat)) = some (.sneVxNn x nn) ∧
      SkipsWhen (.sneVxNn x nn) s (s.getV x ≠ nn)) ∧
    (decodeWord (BitVec.ofNat 16 (0x5000 + x.val * 0x100 + y.val * 0x10)) = some (.seVxVy x y) ∧
      SkipsWhen (.seVxVy x y) s (s.getV x = s.getV y)) ∧
    (decodeWord (BitVec.ofNat 16 (0x9000 + x.val * 0x100 + y.val * 0x10)) = some (.sneVxVy x y) ∧
      SkipsWhen (.sneVxVy x y) s (s.getV x ≠ s.getV y))

/-! ### The ALU -/

/-- R132-R134: the loads 6XNN and 8XY0, and 7XNN whose sum wraps at 256; no flag is written: every register but V[X],
VF among them, keeps its value. -/
def Obligations.LoadsAndImmediateAdd : Prop :=
  ∀ (s : State) (x y : Reg) (nn : Byte),
    (decodeWord (BitVec.ofNat 16 (0x6000 + x.val * 0x100 + nn.toNat)) = some (.ldVxNn x nn) ∧
      WritesRegister (.ldVxNn x nn) s x nn) ∧
    (decodeWord (BitVec.ofNat 16 (0x7000 + x.val * 0x100 + nn.toNat)) = some (.addVxNn x nn) ∧
      ∃ b : Byte, b.toNat = ((s.getV x).toNat + nn.toNat) % 256 ∧ WritesRegister (.addVxNn x nn) s x b) ∧
    (decodeWord (BitVec.ofNat 16 (0x8000 + x.val * 0x100 + y.val * 0x10)) = some (.ldVxVy x y) ∧
      WritesRegister (.ldVxVy x y) s x (s.getV y))

/-- R135-R137: OR, AND and XOR bit by bit; VF is not written unless X = F. -/
def Obligations.BitwiseOperations : Prop :=
  ∀ (s : State) (x y : Reg),
    (decodeWord (BitVec.ofNat 16 (0x8001 + x.val * 0x100 + y.val * 0x10)) = some (.orVxVy x y) ∧
      ∃ b : Byte, (∀ k < 8, b.getLsbD k = ((s.getV x).getLsbD k || (s.getV y).getLsbD k)) ∧
        WritesRegister (.orVxVy x y) s x b) ∧
    (decodeWord (BitVec.ofNat 16 (0x8002 + x.val * 0x100 + y.val * 0x10)) = some (.andVxVy x y) ∧
      ∃ b : Byte, (∀ k < 8, b.getLsbD k = ((s.getV x).getLsbD k && (s.getV y).getLsbD k)) ∧
        WritesRegister (.andVxVy x y) s x b) ∧
    (decodeWord (BitVec.ofNat 16 (0x8003 + x.val * 0x100 + y.val * 0x10)) = some (.xorVxVy x y) ∧
      ∃ b : Byte, (∀ k < 8, b.getLsbD k = ((s.getV x).getLsbD k ^^ (s.getV y).getLsbD k)) ∧
        WritesRegister (.xorVxVy x y) s x b)

/-- R138: 8XY4 gives the sum mod 256 and VF = 1 iff the exact sum exceeds 255; with X = F the flag stays. -/
def Obligations.AddSetsCarry : Prop :=
  ∀ (s : State) (x y : Reg),
    decodeWord (BitVec.ofNat 16 (0x8004 + x.val * 0x100 + y.val * 0x10)) = some (.addVxVy x y) ∧
    WritesResultAndFlag (.addVxVy x y) s x (((s.getV x).toNat + (s.getV y).toNat) % 256)
      (if (s.getV x).toNat + (s.getV y).toNat > 255 then 1 else 0)

/-- R139, R144: 8XY5 and 8XY7 give the difference mod 256 and VF = 1 iff the minuend is at least the subtrahend; with
X = F the flag stays. -/
def Obligations.SubtractsSetNoBorrow : Prop :=
  ∀ (s : State) (x y : Reg),
    (decodeWord (BitVec.ofNat 16 (0x8005 + x.val * 0x100 + y.val * 0x10)) = some (.sub x y) ∧
      WritesResultAndFlag (.sub x y) s x ((((s.getV x).toNat : Int) - ((s.getV y).toNat : Int)) % 256).toNat
        (if (s.getV x).toNat ≥ (s.getV y).toNat then 1 else 0)) ∧
    (decodeWord (BitVec.ofNat 16 (0x8007 + x.val * 0x100 + y.val * 0x10)) = some (.subn x y) ∧
      WritesResultAndFlag (.subn x y) s x ((((s.getV y).toNat : Int) - ((s.getV x).toNat : Int)) % 256).toNat
        (if (s.getV y).toNat ≥ (s.getV x).toNat then 1 else 0))

/-- R143, R145: 8XY6 halves V[X] and 8XYE doubles it mod 256, whatever Y is, and VF gets the bit shifted out; with X = F
the flag stays. -/
def Obligations.ShiftsMoveOneBit : Prop :=
  ∀ (s : State) (x y : Reg),
    (decodeWord (BitVec.ofNat 16 (0x8006 + x.val * 0x100 + y.val * 0x10)) = some (.shr x y) ∧
      WritesResultAndFlag (.shr x y) s x ((s.getV x).toNat / 2) ((s.getV x).toNat % 2)) ∧
    (decodeWord (BitVec.ofNat 16 (0x800E + x.val * 0x100 + y.val * 0x10)) = some (.shl x y) ∧
      WritesResultAndFlag (.shl x y) s x ((s.getV x).toNat * 2 % 256) ((s.getV x).toNat / 128))

/-- R146: CXNN writes the drawn byte masked with NN, so bits outside NN are 0, and changes nothing else of the spec's
state. The draw is the free value `Config.rnd` at the model's own counter, which moves on by one (log 5). -/
def Obligations.RandomByteIsMasked : Prop :=
  ∀ (s : State) (x : Reg) (nn : Byte),
    decodeWord (BitVec.ofNat 16 (0xC000 + x.val * 0x100 + nn.toNat)) = some (.rnd x nn) ∧
    ∃ t : State, exec (.rnd x nn) s = .next t ∧ t = { s with v := t.v, draws := t.draws } ∧ t.draws = s.draws + 1 ∧
      (∀ k < 8, (t.getV x).getLsbD k = ((Config.rnd s.draws).getLsbD k && nn.getLsbD k)) ∧
      (∀ j : Reg, j ≠ x → t.getV j = s.getV j) ∧ ∀ a : Nat, t.mem.read a = s.mem.read a

/-! ### The index register, BCD and block transfers -/

/-- R160-R162: ANNN sets I to NNN, FX1E adds V[X] to I mod 65536, FX29 sets I to V[X] * 5 for every V[X]; no flag. -/
def Obligations.IndexRegisterMoves : Prop :=
  ∀ (s : State) (x : Reg) (nnn : Addr),
    (decodeWord (BitVec.ofNat 16 (0xA000 + nnn.toNat)) = some (.ldINnn nnn) ∧ MovesIndex (.ldINnn nnn) s nnn.toNat) ∧
    (decodeWord (BitVec.ofNat 16 (0xF01E + x.val * 0x100)) = some (.addIVx x) ∧
      MovesIndex (.addIVx x) s ((s.i.toNat + (s.getV x).toNat) % 65536)) ∧
    (decodeWord (BitVec.ofNat 16 (0xF029 + x.val * 0x100)) = some (.ldFVx x) ∧
      MovesIndex (.ldFVx x) s ((s.getV x).toNat * 5))

/-- R163, R164: FX33 stores the hundreds, tens and ones of V[X] at I, I + 1 and I + 2 and changes no other byte and no
other state; the digits make up V[X]; with I + 2 outside memory it stops at the lowest address outside. -/
def Obligations.BcdStore : Prop :=
  ∀ (s : State) (x : Reg),
    decodeWord (BitVec.ofNat 16 (0xF033 + x.val * 0x100)) = some (.ldBVx x) ∧
    (dataAddress s + 2 < 4096 → ∃ (t : State) (h d o : Byte), exec (.ldBVx x) s = .next t ∧
      t = { s with mem := t.mem } ∧
      h.toNat ≤ 2 ∧ d.toNat ≤ 9 ∧ o.toNat ≤ 9 ∧ 100 * h.toNat + 10 * d.toNat + o.toNat = (s.getV x).toNat ∧
      t.mem.read (dataAddress s) = some h ∧ t.mem.read (dataAddress s + 1) = some d ∧
      t.mem.read (dataAddress s + 2) = some o ∧
      ∀ a : Nat, a < dataAddress s ∨ dataAddress s + 2 < a → t.mem.read a = s.mem.read a) ∧
    (4096 ≤ dataAddress s + 2 → HaltsWith (.ldBVx x) s (.memOutOfRange (max (dataAddress s) 4096)))

/-- R165: FX55 stores V[0]..V[X] at I.. I + X and changes no other byte and no other state, I included; with I + X
outside memory it stops at the lowest address outside. -/
def Obligations.StoreRegisters : Prop :=
  ∀ (s : State) (x : Reg),
    decodeWord (BitVec.ofNat 16 (0xF055 + x.val * 0x100)) = some (.ldMemVx x) ∧
    (dataAddress s + x.val < 4096 → ∃ t : State, exec (.ldMemVx x) s = .next t ∧ t = { s with mem := t.mem } ∧
      (∀ k : Reg, k ≤ x → t.mem.read (dataAddress s + k.val) = some (s.getV k)) ∧
      ∀ a : Nat, a < dataAddress s ∨ dataAddress s + x.val < a → t.mem.read a = s.mem.read a) ∧
    (4096 ≤ dataAddress s + x.val → HaltsWith (.ldMemVx x) s (.memOutOfRange (max (dataAddress s) 4096)))

/-- R166: FX65 loads V[0]..V[X] from I.. I + X and changes no other register and no other state, I included; with I + X
outside memory it stops at the lowest address outside. -/
def Obligations.LoadRegisters : Prop :=
  ∀ (s : State) (x : Reg),
    decodeWord (BitVec.ofNat 16 (0xF065 + x.val * 0x100)) = some (.ldVxMem x) ∧
    (dataAddress s + x.val < 4096 → ∃ t : State, exec (.ldVxMem x) s = .next t ∧ t = { s with v := t.v } ∧
      (∀ k : Reg, k ≤ x → some (t.getV k) = s.mem.read (dataAddress s + k.val)) ∧
      (∀ k : Reg, x < k → t.getV k = s.getV k) ∧ ∀ a : Nat, t.mem.read a = s.mem.read a) ∧
    (4096 ≤ dataAddress s + x.val → HaltsWith (.ldVxMem x) s (.memOutOfRange (max (dataAddress s) 4096)))

/-- R168: FX55 and then FX65 with the same X and I give V[0]..V[X] back, whatever the V registers held in between. -/
def Obligations.DumpLoadRoundTrip : Prop :=
  ∀ (s : State) (x : Reg) (between : Vector Byte 16), s.i.toNat + x.val ≤ 0xFFF →
    ∃ t u : State, exec (.ldMemVx x) s = .next t ∧ exec (.ldVxMem x) { t with v := between } = .next u ∧
      (∀ k : Reg, k ≤ x → u.getV k = s.getV k) ∧ ∀ k : Reg, x < k → u.getV k = between[k]

/-! ### The display -/

/-- R190: 00E0 clears every cell and changes nothing else, VF included. -/
def Obligations.ClearScreen : Prop :=
  ∀ s : State, decodeWord 0x00E0 = some .cls ∧
    ∃ t : State, exec .cls s = .next t ∧ t = { s with screen := t.screen } ∧
      (∀ (px : Fin 64) (py : Fin 32), Screen.pixel t.screen px py = false) ∧ ∀ a : Nat, t.mem.read a = s.mem.read a

/-- R191, R192: DXYN flips exactly the cells that lie under a set bit of the sprite at (V[X] mod 64, V[Y] mod 32), with
wrapping at both edges; VF = 1 iff one of them was set, else 0; no other register, no memory and no other state changes;
N = 0 reads nothing and never faults; a row outside memory stops it with no cell and no register written.
That bit 7 is the leftmost column is PRESUMED (log 10). -/
def Obligations.DrawSpriteXorsAndCollides : Prop :=
  ∀ (s : State) (x y : Reg) (n : Fin 16),
    decodeWord (BitVec.ofNat 16 (0xD000 + x.val * 0x100 + y.val * 0x10 + n.val)) = some (.drw x y n) ∧
    ((n.val = 0 ∨ dataAddress s + n.val ≤ 4096) → ∃ t : State, exec (.drw x y n) s = .next t ∧
      t = { s with v := t.v, screen := t.screen } ∧
      (∀ (px : Fin 64) (py : Fin 32), Screen.pixel t.screen px py = true ↔
        (Screen.pixel s.screen px py = true ↔
          ¬ underSprite s ((s.getV x).toNat % 64) ((s.getV y).toNat % 32) n.val px py)) ∧
      (t.getV 15 = 0 ∨ t.getV 15 = 1) ∧
      (t.getV 15 = 1 ↔ ∃ (px : Fin 64) (py : Fin 32),
        underSprite s ((s.getV x).toNat % 64) ((s.getV y).toNat % 32) n.val px py ∧
          Screen.pixel s.screen px py = true) ∧
      (∀ j : Reg, j ≠ 15 → t.getV j = s.getV j) ∧ ∀ a : Nat, t.mem.read a = s.mem.read a) ∧
    (n.val ≠ 0 → 4096 < dataAddress s + n.val →
      HaltsWith (.drw x y n) s (.memOutOfRange (max (dataAddress s) 4096)))

/-- R193 by the pseudocode of R191 (log 26): the same DXYN twice restores the screen, for X and Y other than F. The
second draw reports a collision iff some cell under the sprite was unset before the first; so, drawn where no cell under
it is set, it reports one iff the sprite has a set bit (conflict C8). Which cells lie under the sprite rests on bit 7
being the leftmost column, which is PRESUMED (log 10). -/
def Obligations.DrawTwiceRestoresScreen : Prop :=
  ∀ (s : State) (x y : Reg) (n : Fin 16), x ≠ 15 → y ≠ 15 → (n.val = 0 ∨ dataAddress s + n.val ≤ 4096) →
    ∃ t u : State, exec (.drw x y n) s = .next t ∧ exec (.drw x y n) t = .next u ∧ u.screen = s.screen ∧
      (u.getV 15 = 1 ↔ ∃ (px : Fin 64) (py : Fin 32),
        underSprite s ((s.getV x).toNat % 64) ((s.getV y).toNat % 32) n.val px py ∧
          Screen.pixel s.screen px py = false) ∧
      (t.getV 15 = 0 →
        (u.getV 15 = 1 ↔ ∃ r < n.val, ∃ c < 8, (s.mem.byteAt (dataAddress s + r)).getLsbD c = true))

/-! ### Keys and timers -/

/-- R210, R211: EX9E skips iff the key V[X] names is pressed, EXA1 iff it is released; with V[X] above 15 both stop with
KEY_INDEX_OUT_OF_RANGE. -/
def Obligations.KeySkips : Prop :=
  ∀ (s : State) (x : Reg),
    decodeWord (BitVec.ofNat 16 (0xE09E + x.val * 0x100)) = some (.skp x) ∧
    decodeWord (BitVec.ofNat 16 (0xE0A1 + x.val * 0x100)) = some (.sknp x) ∧
    (∀ k : Key, (s.getV x).toNat = k.val →
      SkipsWhen (.skp x) s (s.keys[k] = true) ∧ SkipsWhen (.sknp x) s (s.keys[k] = false)) ∧
    (15 < (s.getV x).toNat →
      HaltsWith (.skp x) s (.keyIndexOutOfRange (s.getV x)) ∧ HaltsWith (.sknp x) s (.keyIndexOutOfRange (s.getV x)))

/-- R212, R214, R215: FX07 copies DT to V[X], FX15 copies V[X] to DT and FX18 copies V[X] to ST; nothing else changes. -/
def Obligations.TimerMoves : Prop :=
  ∀ (s : State) (x : Reg),
    (decodeWord (BitVec.ofNat 16 (0xF007 + x.val * 0x100)) = some (.ldVxDt x) ∧ WritesRegister (.ldVxDt x) s x s.dt) ∧
    (decodeWord (BitVec.ofNat 16 (0xF015 + x.val * 0x100)) = some (.ldDtVx x) ∧
      exec (.ldDtVx x) s = .next { s with dt := s.getV x }) ∧
    (decodeWord (BitVec.ofNat 16 (0xF018 + x.val * 0x100)) = some (.ldStVx x) ∧
      exec (.ldStVx x) s = .next { s with st := s.getV x })

/-- R213: FX0A gives V[X] the lowest pressed key; with no key pressed it moves PC back by two and changes nothing else. -/
def Obligations.KeyWaitTakesLowestKey : Prop :=
  ∀ (s : State) (x : Reg),
    decodeWord (BitVec.ofNat 16 (0xF00A + x.val * 0x100)) = some (.ldVxK x) ∧
    (∀ j : Key, s.keys[j] = true → (∀ k : Key, k < j → s.keys[k] = false) →
      WritesRegister (.ldVxK x) s x (BitVec.ofNat 8 j.val)) ∧
    ((∀ k : Key, s.keys[k] = false) → exec (.ldVxK x) s = .next { s with pc := s.pc - 2 })

/-- R213: a STEP at FX0A with no key pressed leaves the whole state as it was, so any number of STEPs does. -/
def Obligations.KeyWaitSpins : Prop :=
  ∀ (s : State) (x : Reg) (n : Nat), s.fault = none → fetchWord s = some (encode (.ldVxK x)) →
    (∀ k : Key, s.keys[k] = false) → step s = .next s ∧ StepsOnly n s s

/-! ### Rules about the whole machine -/

/-- R23: an instruction that completes leaves every V register that `writesV` does not list for it as it was. -/
def Obligations.OnlyListedInstructionsWriteV : Prop :=
  ∀ (i : Instr) (s t : State) (j : Reg), exec i s = .next t → writesV i j = false → t.getV j = s.getV j

/-- Who writes the other state (R27, R28, R30, R34, R35, R44, R51): the stack only CALL and RET, I only ANNN, FX1E and
FX29, DT only FX15, ST only FX18, the screen only 00E0 and DXYN, memory only FX33 and FX55; no completing instruction
writes a key or the fault latch, and only CXNN takes a draw. -/
def Obligations.OnlyListedInstructionsWriteTheRest : Prop :=
  ∀ (i : Instr) (s t : State), exec i s = .next t →
    ((t.sp ≠ s.sp ∨ t.stack ≠ s.stack) → i = .ret ∨ ∃ nnn, i = .call nnn) ∧
    (t.i ≠ s.i → (∃ nnn, i = .ldINnn nnn) ∨ ∃ x, i = .addIVx x ∨ i = .ldFVx x) ∧
    (t.dt ≠ s.dt → ∃ x, i = .ldDtVx x) ∧ (t.st ≠ s.st → ∃ x, i = .ldStVx x) ∧
    (t.screen ≠ s.screen → i = .cls ∨ ∃ x y n, i = .drw x y n) ∧
    ((∃ a, t.mem.read a ≠ s.mem.read a) → ∃ x, i = .ldBVx x ∨ i = .ldMemVx x) ∧
    t.keys = s.keys ∧ t.fault = s.fault ∧ (t.draws ≠ s.draws → ∃ x nn, i = .rnd x nn)

/-- R24: where a completing STEP leaves PC: two further; four further for a taken skip; at the same place for FX0A with
no key pressed; or at the target of 1NNN, 2NNN, BNNN or 00EE. -/
def Obligations.ProgramCounterAfterStep : Prop :=
  ∀ (s t : State), step s = .next t → ∃ (w : Word) (i : Instr), fetchWord s = some w ∧ decodeWord w = some i ∧
    (t.pc = s.pc + 2 ∨
    (t.pc = s.pc + 4 ∧ ((∃ x nn, i = .seVxNn x nn ∨ i = .sneVxNn x nn) ∨
      (∃ x y, i = .seVxVy x y ∨ i = .sneVxVy x y) ∨ ∃ x, i = .skp x ∨ i = .sknp x)) ∨
    (t.pc = s.pc ∧ (∃ x, i = .ldVxK x) ∧ ∀ k : Key, s.keys[k] = false) ∨
    (∃ nnn, (i = .jp nnn ∨ i = .call nnn) ∧ t.pc.toNat = nnn.toNat) ∨
    (∃ nnn, i = .jpV0 nnn ∧ t.pc.toNat = (s.getV 0).toNat + nnn.toNat) ∨
    (i = .ret ∧ ∃ k : Fin 16, s.sp.val = k.val + 1 ∧ t.pc = s.stack[k]))

/-- R47: every field of the state after RESET, in the order of the rule's table, and RESET leads there from every state
(R39). RESET takes no FONT here: that memory holds the one constant `Config.font` after every RESET is the model's
choice (log 3). Nothing is said of the model's own field `draws` (log 5). -/
def Obligations.ResetBaseline : Prop :=
  (∀ s : State, ∃ t o, perform .reset s = some (t, o) ∧ t = { State.reset with draws := t.draws }) ∧
  (∀ j : Reg, State.reset.getV j = 0) ∧ State.reset.pc = 0x200 ∧ State.reset.i = 0 ∧
  (∀ k : Fin 16, State.reset.stack[k] = 0) ∧ State.reset.sp.val = 0 ∧ State.reset.dt = 0 ∧ State.reset.st = 0 ∧
  (∀ a : Fin 80, State.reset.mem.read a.val = some Config.font[a]) ∧
  (∀ a : Nat, 0x050 ≤ a → a ≤ 0xFFF → State.reset.mem.read a = some 0) ∧
  (∀ (px : Fin 64) (py : Fin 32), Screen.pixel State.reset.screen px py = false) ∧
  (∀ k : Key, State.reset.keys[k] = false) ∧ State.reset.fault = none

/-- The state after RESET meets the invariant. -/
def Obligations.ResetMeetsInvariant : Prop := State.reset.Inv

/-- From every state that meets the invariant, STEP keeps it, in the next state and in the halted state alike: memory
stays canonical, PC at most 0x10FE (R25), every return address at most 0x1000. -/
def Obligations.StepKeepsInvariant : Prop :=
  ∀ s : State, s.Inv →
    (∀ t : State, step s = .next t → t.Inv) ∧ ∀ (r : FaultRecord) (t : State), step s = .fault (.fatal r t) → t.Inv

/-- Every state that any interleaving of STEP, TICK, RESET and the host's operations reaches, with whatever program the
host writes to memory, meets the invariant (R25, R43, R48). -/
def Obligations.ReachableStatesMeetInvariant : Prop :=
  ∀ s : State, Reachable s → s.Inv

/-- R25, R24: in every state whose fetch succeeds the PC operations are exact: the advance adds two, a skip after it
four in all and at most 0x1002, FX0A's rewind goes back to the instruction; and a completing STEP leaves PC, as an exact
number, unchanged, two or four further, at a target of at most 0x10FE, or at the address RET popped. -/
def Obligations.ProgramCounterNeverWraps : Prop :=
  ∀ (s : State) (w : Word), fetchWord s = some w →
    s.pc.toNat ≤ 0xFFE ∧ s.advance.pc.toNat = s.pc.toNat + 2 ∧
    (s.advance.skipIf true).pc.toNat = s.pc.toNat + 4 ∧ (s.advance.skipIf true).pc.toNat ≤ 0x1002 ∧
    (s.advance.skipIf false).pc.toNat = s.pc.toNat + 2 ∧ s.advance.rewind.pc.toNat = s.pc.toNat ∧
    ∀ t : State, step s = .next t → ∃ i : Instr, decodeWord w = some i ∧
      (t.pc.toNat = s.pc.toNat ∨ t.pc.toNat = s.pc.toNat + 2 ∨ t.pc.toNat = s.pc.toNat + 4 ∨
      (t.pc.toNat ≤ 0x10FE ∧ ∃ nnn, i = .jp nnn ∨ i = .call nnn ∨ i = .jpV0 nnn) ∨
      (i = .ret ∧ ∃ k : Fin 16, s.sp.val = k.val + 1 ∧ t.pc = s.stack[k]))

/-- Equal memories are equal data: two memories in canonical form that read alike at every address are the same (log 4). -/
def Obligations.EqualMemoriesAreEqualData : Prop :=
  ∀ m m' : Memory, m.wf → m'.wf → (∀ a : Nat, m.read a = m'.read a) → m = m'

/-- R66: a store over the next instruction is seen by the next fetch: after FX55 of V[0] and V[1] at the address of the
next instruction, that is the word fetched. -/
def Obligations.StoreIsSeenByNextFetch : Prop :=
  ∀ s : State, s.i = s.pc → s.pc.toNat + 1 < 4096 →
    ∃ (t : State) (w : Word), exec (.ldMemVx 1) s = .next t ∧ fetchWord t = some w ∧
      w.toNat = (s.getV 0).toNat * 256 + (s.getV 1).toNat

/-- R268 (a): from a spin end every STEP returns the same state, for ever, and after a TICK it is again a spin end. -/
def Obligations.SpinEndStays : Prop :=
  ∀ s : State, SpinEnd s →
    step s = .next s ∧ (∀ k : Nat, StepsOnly k s s) ∧ ∃ (t : State) (b : Bool), tick s = .next (t, b) ∧ SpinEnd t

/-- R46 (D17): the stack slots at or above SP cannot be observed: STEP from two states that differ in those alone has
the same outcome, and leaves states that again differ in those alone. The two states hold the same `draws`, so a CXNN
takes the same byte in both STEPs: the model's choice (log 5), where R37 gives each STEP a draw of its own; the statement
compares STEPs with the same draw. -/
def Obligations.StaleStackSlotsAreUnobservable : Prop :=
  ∀ s s' : State, SameButStaleSlots s s' →
    (∀ t, step s = .next t → ∃ t', step s' = .next t' ∧ SameButStaleSlots t t') ∧
    (∀ r t, step s = .fault (.fatal r t) → ∃ t', step s' = .fault (.fatal r t') ∧ SameButStaleSlots t t') ∧
    ∀ r, step s = .refused r → step s' = .refused r

/-- R46: no instruction reads ST: STEP from two states that differ in ST alone has the same outcome, but for ST. The two
states hold the same `draws`, so a CXNN takes the same byte in both STEPs: the model's choice (log 5), where R37 gives
each STEP a draw of its own; the statement compares STEPs with the same draw. -/
def Obligations.SoundTimerIsNotRead : Prop :=
  ∀ (s : State) (b : Byte),
    (∀ t, step s = .next t → ∃ c, step { s with st := b } = .next { t with st := c }) ∧
    (∀ r t, step s = .fault (.fatal r t) → step { s with st := b } = .fault (.fatal r { t with st := b })) ∧
    ∀ r, step s = .refused r → step { s with st := b } = .refused r

/-! ### TICK and the host -/

/-- R240, R241: TICK lowers DT and ST by one, each clamped at 0, changes nothing else, and `tone_stop` is true exactly
when it takes ST from 1 to 0. -/
def Obligations.TickCountsDown : Prop :=
  ∀ s : State, s.fault = none → ∃ (t : State) (toneStops : Bool), tick s = .next (t, toneStops) ∧
    t = { s with dt := t.dt, st := t.st } ∧ t.dt.toNat = s.dt.toNat - 1 ∧ t.st.toNat = s.st.toNat - 1 ∧
    (toneStops = true ↔ s.st.toNat = 1 ∧ t.st.toNat = 0)

/-- R40, R41, R42: HOST_SET_KEY sets its one key, HOST_WRITE_MEM its one byte, and HOST_READ nothing; nothing else
changes, and they are enabled in every state. The host's flat index of cell (x, y) is y * 64 + x (R34, the spec's
decision D15; log 11). -/
def Obligations.HostOperations : Prop :=
  ∀ s : State,
    (∀ (k : Key) (b : Bool), ∃ t o, perform (.setKey k b) s = some (t, o) ∧ t = { s with keys := t.keys } ∧
      ∀ j : Key, t.keys[j] = if j = k then b else s.keys[j]) ∧
    (∀ (a : Fin 4096) (b : Byte), ∃ t o, perform (.writeMem a b) s = some (t, o) ∧ t = { s with mem := t.mem } ∧
      ∀ c : Nat, t.mem.read c = if c = a.val then some b else s.mem.read c) ∧
    ∃ view : HostView, perform .read s = some (s, .view view) ∧ view.st = s.st ∧ view.fault = s.fault ∧
      ∀ (px : Fin 64) (py : Fin 32) (k : Fin 2048), k.val = py.val * 64 + px.val →
        view.flatPixel k = Screen.pixel s.screen px py

/-- R42, R262: loading a ROM of at most 3584 bytes puts byte i at 0x200 + i and changes nothing else. A launch completes:
its memory holds the ROM from 0x200 and the reset content elsewhere, each key is as its last setting leaves it and
released if it has none, every other field is as in the state after RESET, and the block's operations reach it. -/
def Obligations.RomLoad : Prop :=
  ∀ (rom : List Byte), rom.length ≤ 3584 →
    (∀ s : State, ∃ t : State, loadRom rom s = some t ∧ t = { s with mem := t.mem } ∧
      (∀ (k : Nat) (h : k < rom.length), t.mem.read (0x200 + k) = some rom[k]) ∧
      ∀ a : Nat, a < 0x200 ∨ 0x200 + rom.length ≤ a → t.mem.read a = s.mem.read a) ∧
    ∀ presses : List (Key × Bool), ∃ t : State, launch rom presses = some t ∧ Reachable t ∧
      t = { State.reset with mem := t.mem, keys := t.keys } ∧ t.pc = 0x200 ∧
      (∀ (k : Nat) (h : k < rom.length), t.mem.read (0x200 + k) = some rom[k]) ∧
      (∀ a : Nat, a < 0x200 ∨ 0x200 + rom.length ≤ a → t.mem.read a = State.reset.mem.read a) ∧
      ∀ k : Key, ((∀ b : Bool, (k, b) ∉ presses) → t.keys[k] = false) ∧
        ∀ (before after : List (Key × Bool)) (b : Bool), presses = before ++ (k, b) :: after →
          (∀ c : Bool, (k, c) ∉ after) → t.keys[k] = b

/-! ### Runs of the block's operations -/

/-- Every operation keeps the invariant (R25, R43, R48): from every state that meets it, STEP (to a next state or to a
halted one), TICK, RESET and each of the host's operations lead to a state that meets it. -/
def Obligations.OperationsKeepInvariant : Prop :=
  ∀ (s t : State) (op : Op) (o : OpOutput), s.Inv → perform op s = some (t, o) → t.Inv

/-- R268, R269, R44, R236, over runs of any operations but RESET. (a) From a spin end every run without a write to
memory can be performed and ends in a spin end, where only the timers and the keys may differ. (b) From a state that is
not faulted STEPs that complete, another operation and STEPs again are a fuel end of all the STEPs. (c) From a faulted
state no run makes a STEP, every run ends faulted, and there is no fuel end; and a run to a fault is no fuel end. -/
def Obligations.EndsOfARun : Prop :=
  ∀ (s : State) (ops : List Op), Op.reset ∉ ops →
    (SpinEnd s → (∀ a b, Op.writeMem a b ∉ ops) → ∃ t : State, performAll ops s = some t ∧ SpinEnd t ∧
      t = { s with dt := t.dt, st := t.st, keys := t.keys } ∧ FuelEnd (ops.count .step) s t) ∧
    (∀ (j k : Nat) (u v t : State) (op : Op) (o : OpOutput), ¬ Faulted s → op ≠ .step → op ≠ .reset →
      StepsOnly j s u → perform op u = some (v, o) → StepsOnly k v t → FuelEnd (j + k) s t) ∧
    (Faulted s → (∀ t : State, performAll ops s = some t → Faulted t ∧ ops.count .step = 0) ∧
      ∀ (k : Nat) (t : State), ¬ FuelEnd k s t) ∧
    ∀ (k : Nat) (r : FaultRecord) (t : State), step s = .fault (.fatal r t) → ¬ FuelEnd k s t
end

