-- ==== Sys2Proof/Laws/State.lean ====
section
/-! SUPPORT. What each update of State does to each field: one lemma a field and update. -/

namespace Sys2Proof.Machine

@[simp] theorem State.setV_v (s : State) (x : Reg) (b : Byte) : (s.setV x b).v = s.v.set x b := rfl
@[simp] theorem State.setV_pc (s : State) (x : Reg) (b : Byte) : (s.setV x b).pc = s.pc := rfl
@[simp] theorem State.setV_i (s : State) (x : Reg) (b : Byte) : (s.setV x b).i = s.i := rfl
@[simp] theorem State.setV_stack (s : State) (x : Reg) (b : Byte) : (s.setV x b).stack = s.stack := rfl
@[simp] theorem State.setV_sp (s : State) (x : Reg) (b : Byte) : (s.setV x b).sp = s.sp := rfl
@[simp] theorem State.setV_dt (s : State) (x : Reg) (b : Byte) : (s.setV x b).dt = s.dt := rfl
@[simp] theorem State.setV_st (s : State) (x : Reg) (b : Byte) : (s.setV x b).st = s.st := rfl
@[simp] theorem State.setV_mem (s : State) (x : Reg) (b : Byte) : (s.setV x b).mem = s.mem := rfl
@[simp] theorem State.setV_screen (s : State) (x : Reg) (b : Byte) : (s.setV x b).screen = s.screen := rfl
@[simp] theorem State.setV_keys (s : State) (x : Reg) (b : Byte) : (s.setV x b).keys = s.keys := rfl
@[simp] theorem State.setV_fault (s : State) (x : Reg) (b : Byte) : (s.setV x b).fault = s.fault := rfl
@[simp] theorem State.setV_draws (s : State) (x : Reg) (b : Byte) : (s.setV x b).draws = s.draws := rfl

@[simp] theorem State.setRegs_v (s : State) (w : Vector Byte 16) : (s.setRegs w).v = w := rfl
@[simp] theorem State.setRegs_pc (s : State) (w : Vector Byte 16) : (s.setRegs w).pc = s.pc := rfl
@[simp] theorem State.setRegs_i (s : State) (w : Vector Byte 16) : (s.setRegs w).i = s.i := rfl
@[simp] theorem State.setRegs_stack (s : State) (w : Vector Byte 16) : (s.setRegs w).stack = s.stack := rfl
@[simp] theorem State.setRegs_sp (s : State) (w : Vector Byte 16) : (s.setRegs w).sp = s.sp := rfl
@[simp] theorem State.setRegs_dt (s : State) (w : Vector Byte 16) : (s.setRegs w).dt = s.dt := rfl
@[simp] theorem State.setRegs_st (s : State) (w : Vector Byte 16) : (s.setRegs w).st = s.st := rfl
@[simp] theorem State.setRegs_mem (s : State) (w : Vector Byte 16) : (s.setRegs w).mem = s.mem := rfl
@[simp] theorem State.setRegs_screen (s : State) (w : Vector Byte 16) : (s.setRegs w).screen = s.screen := rfl
@[simp] theorem State.setRegs_keys (s : State) (w : Vector Byte 16) : (s.setRegs w).keys = s.keys := rfl
@[simp] theorem State.setRegs_fault (s : State) (w : Vector Byte 16) : (s.setRegs w).fault = s.fault := rfl
@[simp] theorem State.setRegs_draws (s : State) (w : Vector Byte 16) : (s.setRegs w).draws = s.draws := rfl

@[simp] theorem State.setPc_v (s : State) (t : Word) : (s.setPc t).v = s.v := rfl
@[simp] theorem State.setPc_pc (s : State) (t : Word) : (s.setPc t).pc = t := rfl
@[simp] theorem State.setPc_i (s : State) (t : Word) : (s.setPc t).i = s.i := rfl
@[simp] theorem State.setPc_stack (s : State) (t : Word) : (s.setPc t).stack = s.stack := rfl
@[simp] theorem State.setPc_sp (s : State) (t : Word) : (s.setPc t).sp = s.sp := rfl
@[simp] theorem State.setPc_dt (s : State) (t : Word) : (s.setPc t).dt = s.dt := rfl
@[simp] theorem State.setPc_st (s : State) (t : Word) : (s.setPc t).st = s.st := rfl
@[simp] theorem State.setPc_mem (s : State) (t : Word) : (s.setPc t).mem = s.mem := rfl
@[simp] theorem State.setPc_screen (s : State) (t : Word) : (s.setPc t).screen = s.screen := rfl
@[simp] theorem State.setPc_keys (s : State) (t : Word) : (s.setPc t).keys = s.keys := rfl
@[simp] theorem State.setPc_fault (s : State) (t : Word) : (s.setPc t).fault = s.fault := rfl
@[simp] theorem State.setPc_draws (s : State) (t : Word) : (s.setPc t).draws = s.draws := rfl

@[simp] theorem State.setI_v (s : State) (w : Word) : (s.setI w).v = s.v := rfl
@[simp] theorem State.setI_pc (s : State) (w : Word) : (s.setI w).pc = s.pc := rfl
@[simp] theorem State.setI_i (s : State) (w : Word) : (s.setI w).i = w := rfl
@[simp] theorem State.setI_stack (s : State) (w : Word) : (s.setI w).stack = s.stack := rfl
@[simp] theorem State.setI_sp (s : State) (w : Word) : (s.setI w).sp = s.sp := rfl
@[simp] theorem State.setI_dt (s : State) (w : Word) : (s.setI w).dt = s.dt := rfl
@[simp] theorem State.setI_st (s : State) (w : Word) : (s.setI w).st = s.st := rfl
@[simp] theorem State.setI_mem (s : State) (w : Word) : (s.setI w).mem = s.mem := rfl
@[simp] theorem State.setI_screen (s : State) (w : Word) : (s.setI w).screen = s.screen := rfl
@[simp] theorem State.setI_keys (s : State) (w : Word) : (s.setI w).keys = s.keys := rfl
@[simp] theorem State.setI_fault (s : State) (w : Word) : (s.setI w).fault = s.fault := rfl
@[simp] theorem State.setI_draws (s : State) (w : Word) : (s.setI w).draws = s.draws := rfl

@[simp] theorem State.setDt_v (s : State) (b : Byte) : (s.setDt b).v = s.v := rfl
@[simp] theorem State.setDt_pc (s : State) (b : Byte) : (s.setDt b).pc = s.pc := rfl
@[simp] theorem State.setDt_i (s : State) (b : Byte) : (s.setDt b).i = s.i := rfl
@[simp] theorem State.setDt_stack (s : State) (b : Byte) : (s.setDt b).stack = s.stack := rfl
@[simp] theorem State.setDt_sp (s : State) (b : Byte) : (s.setDt b).sp = s.sp := rfl
@[simp] theorem State.setDt_dt (s : State) (b : Byte) : (s.setDt b).dt = b := rfl
@[simp] theorem State.setDt_st (s : State) (b : Byte) : (s.setDt b).st = s.st := rfl
@[simp] theorem State.setDt_mem (s : State) (b : Byte) : (s.setDt b).mem = s.mem := rfl
@[simp] theorem State.setDt_screen (s : State) (b : Byte) : (s.setDt b).screen = s.screen := rfl
@[simp] theorem State.setDt_keys (s : State) (b : Byte) : (s.setDt b).keys = s.keys := rfl
@[simp] theorem State.setDt_fault (s : State) (b : Byte) : (s.setDt b).fault = s.fault := rfl
@[simp] theorem State.setDt_draws (s : State) (b : Byte) : (s.setDt b).draws = s.draws := rfl

@[simp] theorem State.setSt_v (s : State) (b : Byte) : (s.setSt b).v = s.v := rfl
@[simp] theorem State.setSt_pc (s : State) (b : Byte) : (s.setSt b).pc = s.pc := rfl
@[simp] theorem State.setSt_i (s : State) (b : Byte) : (s.setSt b).i = s.i := rfl
@[simp] theorem State.setSt_stack (s : State) (b : Byte) : (s.setSt b).stack = s.stack := rfl
@[simp] theorem State.setSt_sp (s : State) (b : Byte) : (s.setSt b).sp = s.sp := rfl
@[simp] theorem State.setSt_dt (s : State) (b : Byte) : (s.setSt b).dt = s.dt := rfl
@[simp] theorem State.setSt_st (s : State) (b : Byte) : (s.setSt b).st = b := rfl
@[simp] theorem State.setSt_mem (s : State) (b : Byte) : (s.setSt b).mem = s.mem := rfl
@[simp] theorem State.setSt_screen (s : State) (b : Byte) : (s.setSt b).screen = s.screen := rfl
@[simp] theorem State.setSt_keys (s : State) (b : Byte) : (s.setSt b).keys = s.keys := rfl
@[simp] theorem State.setSt_fault (s : State) (b : Byte) : (s.setSt b).fault = s.fault := rfl
@[simp] theorem State.setSt_draws (s : State) (b : Byte) : (s.setSt b).draws = s.draws := rfl

@[simp] theorem State.setMem_v (s : State) (m : Memory) : (s.setMem m).v = s.v := rfl
@[simp] theorem State.setMem_pc (s : State) (m : Memory) : (s.setMem m).pc = s.pc := rfl
@[simp] theorem State.setMem_i (s : State) (m : Memory) : (s.setMem m).i = s.i := rfl
@[simp] theorem State.setMem_stack (s : State) (m : Memory) : (s.setMem m).stack = s.stack := rfl
@[simp] theorem State.setMem_sp (s : State) (m : Memory) : (s.setMem m).sp = s.sp := rfl
@[simp] theorem State.setMem_dt (s : State) (m : Memory) : (s.setMem m).dt = s.dt := rfl
@[simp] theorem State.setMem_st (s : State) (m : Memory) : (s.setMem m).st = s.st := rfl
@[simp] theorem State.setMem_mem (s : State) (m : Memory) : (s.setMem m).mem = m := rfl
@[simp] theorem State.setMem_screen (s : State) (m : Memory) : (s.setMem m).screen = s.screen := rfl
@[simp] theorem State.setMem_keys (s : State) (m : Memory) : (s.setMem m).keys = s.keys := rfl
@[simp] theorem State.setMem_fault (s : State) (m : Memory) : (s.setMem m).fault = s.fault := rfl
@[simp] theorem State.setMem_draws (s : State) (m : Memory) : (s.setMem m).draws = s.draws := rfl

@[simp] theorem State.setScreen_v (s : State) (p : Screen) : (s.setScreen p).v = s.v := rfl
@[simp] theorem State.setScreen_pc (s : State) (p : Screen) : (s.setScreen p).pc = s.pc := rfl
@[simp] theorem State.setScreen_i (s : State) (p : Screen) : (s.setScreen p).i = s.i := rfl
@[simp] theorem State.setScreen_stack (s : State) (p : Screen) : (s.setScreen p).stack = s.stack := rfl
@[simp] theorem State.setScreen_sp (s : State) (p : Screen) : (s.setScreen p).sp = s.sp := rfl
@[simp] theorem State.setScreen_dt (s : State) (p : Screen) : (s.setScreen p).dt = s.dt := rfl
@[simp] theorem State.setScreen_st (s : State) (p : Screen) : (s.setScreen p).st = s.st := rfl
@[simp] theorem State.setScreen_mem (s : State) (p : Screen) : (s.setScreen p).mem = s.mem := rfl
@[simp] theorem State.setScreen_screen (s : State) (p : Screen) : (s.setScreen p).screen = p := rfl
@[simp] theorem State.setScreen_keys (s : State) (p : Screen) : (s.setScreen p).keys = s.keys := rfl
@[simp] theorem State.setScreen_fault (s : State) (p : Screen) : (s.setScreen p).fault = s.fault := rfl
@[simp] theorem State.setScreen_draws (s : State) (p : Screen) : (s.setScreen p).draws = s.draws := rfl

@[simp] theorem State.latch_v (s : State) (r : FaultRecord) : (s.latch r).v = s.v := rfl
@[simp] theorem State.latch_pc (s : State) (r : FaultRecord) : (s.latch r).pc = s.pc := rfl
@[simp] theorem State.latch_i (s : State) (r : FaultRecord) : (s.latch r).i = s.i := rfl
@[simp] theorem State.latch_stack (s : State) (r : FaultRecord) : (s.latch r).stack = s.stack := rfl
@[simp] theorem State.latch_sp (s : State) (r : FaultRecord) : (s.latch r).sp = s.sp := rfl
@[simp] theorem State.latch_dt (s : State) (r : FaultRecord) : (s.latch r).dt = s.dt := rfl
@[simp] theorem State.latch_st (s : State) (r : FaultRecord) : (s.latch r).st = s.st := rfl
@[simp] theorem State.latch_mem (s : State) (r : FaultRecord) : (s.latch r).mem = s.mem := rfl
@[simp] theorem State.latch_screen (s : State) (r : FaultRecord) : (s.latch r).screen = s.screen := rfl
@[simp] theorem State.latch_keys (s : State) (r : FaultRecord) : (s.latch r).keys = s.keys := rfl
@[simp] theorem State.latch_fault (s : State) (r : FaultRecord) : (s.latch r).fault = some r := rfl
@[simp] theorem State.latch_draws (s : State) (r : FaultRecord) : (s.latch r).draws = s.draws := rfl

@[simp] theorem State.setVFlag_v (s : State) (x : Reg) (r f : Byte) : (s.setVFlag x r f).v = (s.v.set x r).set regF f := rfl
@[simp] theorem State.setVFlag_pc (s : State) (x : Reg) (r f : Byte) : (s.setVFlag x r f).pc = s.pc := rfl
@[simp] theorem State.setVFlag_i (s : State) (x : Reg) (r f : Byte) : (s.setVFlag x r f).i = s.i := rfl
@[simp] theorem State.setVFlag_stack (s : State) (x : Reg) (r f : Byte) : (s.setVFlag x r f).stack = s.stack := rfl
@[simp] theorem State.setVFlag_sp (s : State) (x : Reg) (r f : Byte) : (s.setVFlag x r f).sp = s.sp := rfl
@[simp] theorem State.setVFlag_dt (s : State) (x : Reg) (r f : Byte) : (s.setVFlag x r f).dt = s.dt := rfl
@[simp] theorem State.setVFlag_st (s : State) (x : Reg) (r f : Byte) : (s.setVFlag x r f).st = s.st := rfl
@[simp] theorem State.setVFlag_mem (s : State) (x : Reg) (r f : Byte) : (s.setVFlag x r f).mem = s.mem := rfl
@[simp] theorem State.setVFlag_screen (s : State) (x : Reg) (r f : Byte) : (s.setVFlag x r f).screen = s.screen := rfl
@[simp] theorem State.setVFlag_keys (s : State) (x : Reg) (r f : Byte) : (s.setVFlag x r f).keys = s.keys := rfl
@[simp] theorem State.setVFlag_fault (s : State) (x : Reg) (r f : Byte) : (s.setVFlag x r f).fault = s.fault := rfl
@[simp] theorem State.setVFlag_draws (s : State) (x : Reg) (r f : Byte) : (s.setVFlag x r f).draws = s.draws := rfl

@[simp] theorem State.advance_v (s : State) : s.advance.v = s.v := rfl
@[simp] theorem State.advance_pc (s : State) : s.advance.pc = s.pc + 2 := rfl
@[simp] theorem State.advance_i (s : State) : s.advance.i = s.i := rfl
@[simp] theorem State.advance_stack (s : State) : s.advance.stack = s.stack := rfl
@[simp] theorem State.advance_sp (s : State) : s.advance.sp = s.sp := rfl
@[simp] theorem State.advance_dt (s : State) : s.advance.dt = s.dt := rfl
@[simp] theorem State.advance_st (s : State) : s.advance.st = s.st := rfl
@[simp] theorem State.advance_mem (s : State) : s.advance.mem = s.mem := rfl
@[simp] theorem State.advance_screen (s : State) : s.advance.screen = s.screen := rfl
@[simp] theorem State.advance_keys (s : State) : s.advance.keys = s.keys := rfl
@[simp] theorem State.advance_fault (s : State) : s.advance.fault = s.fault := rfl
@[simp] theorem State.advance_draws (s : State) : s.advance.draws = s.draws := rfl

@[simp] theorem State.rewind_v (s : State) : s.rewind.v = s.v := rfl
@[simp] theorem State.rewind_pc (s : State) : s.rewind.pc = s.pc - 2 := rfl
@[simp] theorem State.rewind_i (s : State) : s.rewind.i = s.i := rfl
@[simp] theorem State.rewind_stack (s : State) : s.rewind.stack = s.stack := rfl
@[simp] theorem State.rewind_sp (s : State) : s.rewind.sp = s.sp := rfl
@[simp] theorem State.rewind_dt (s : State) : s.rewind.dt = s.dt := rfl
@[simp] theorem State.rewind_st (s : State) : s.rewind.st = s.st := rfl
@[simp] theorem State.rewind_mem (s : State) : s.rewind.mem = s.mem := rfl
@[simp] theorem State.rewind_screen (s : State) : s.rewind.screen = s.screen := rfl
@[simp] theorem State.rewind_keys (s : State) : s.rewind.keys = s.keys := rfl
@[simp] theorem State.rewind_fault (s : State) : s.rewind.fault = s.fault := rfl
@[simp] theorem State.rewind_draws (s : State) : s.rewind.draws = s.draws := rfl

@[simp] theorem State.skipIf_v (s : State) (c : Bool) : (s.skipIf c).v = s.v := by cases c <;> rfl
@[simp] theorem State.skipIf_pc (s : State) (c : Bool) : (s.skipIf c).pc = if c then s.pc + 2 else s.pc := by
  cases c <;> rfl
@[simp] theorem State.skipIf_i (s : State) (c : Bool) : (s.skipIf c).i = s.i := by cases c <;> rfl
@[simp] theorem State.skipIf_stack (s : State) (c : Bool) : (s.skipIf c).stack = s.stack := by cases c <;> rfl
@[simp] theorem State.skipIf_sp (s : State) (c : Bool) : (s.skipIf c).sp = s.sp := by cases c <;> rfl
@[simp] theorem State.skipIf_dt (s : State) (c : Bool) : (s.skipIf c).dt = s.dt := by cases c <;> rfl
@[simp] theorem State.skipIf_st (s : State) (c : Bool) : (s.skipIf c).st = s.st := by cases c <;> rfl
@[simp] theorem State.skipIf_mem (s : State) (c : Bool) : (s.skipIf c).mem = s.mem := by cases c <;> rfl
@[simp] theorem State.skipIf_screen (s : State) (c : Bool) : (s.skipIf c).screen = s.screen := by cases c <;> rfl
@[simp] theorem State.skipIf_keys (s : State) (c : Bool) : (s.skipIf c).keys = s.keys := by cases c <;> rfl
@[simp] theorem State.skipIf_fault (s : State) (c : Bool) : (s.skipIf c).fault = s.fault := by cases c <;> rfl
@[simp] theorem State.skipIf_draws (s : State) (c : Bool) : (s.skipIf c).draws = s.draws := by cases c <;> rfl

@[simp] theorem State.draw_fst (s : State) : s.draw.1 = Config.rnd s.draws := rfl
@[simp] theorem State.draw_snd_v (s : State) : s.draw.2.v = s.v := rfl
@[simp] theorem State.draw_snd_pc (s : State) : s.draw.2.pc = s.pc := rfl
@[simp] theorem State.draw_snd_i (s : State) : s.draw.2.i = s.i := rfl
@[simp] theorem State.draw_snd_stack (s : State) : s.draw.2.stack = s.stack := rfl
@[simp] theorem State.draw_snd_sp (s : State) : s.draw.2.sp = s.sp := rfl
@[simp] theorem State.draw_snd_dt (s : State) : s.draw.2.dt = s.dt := rfl
@[simp] theorem State.draw_snd_st (s : State) : s.draw.2.st = s.st := rfl
@[simp] theorem State.draw_snd_mem (s : State) : s.draw.2.mem = s.mem := rfl
@[simp] theorem State.draw_snd_screen (s : State) : s.draw.2.screen = s.screen := rfl
@[simp] theorem State.draw_snd_keys (s : State) : s.draw.2.keys = s.keys := rfl
@[simp] theorem State.draw_snd_fault (s : State) : s.draw.2.fault = s.fault := rfl
@[simp] theorem State.draw_snd_draws (s : State) : s.draw.2.draws = s.draws + 1 := rfl

@[simp] theorem State.countedDown_v (s : State) : s.countedDown.v = s.v := rfl
@[simp] theorem State.countedDown_pc (s : State) : s.countedDown.pc = s.pc := rfl
@[simp] theorem State.countedDown_i (s : State) : s.countedDown.i = s.i := rfl
@[simp] theorem State.countedDown_stack (s : State) : s.countedDown.stack = s.stack := rfl
@[simp] theorem State.countedDown_sp (s : State) : s.countedDown.sp = s.sp := rfl
@[simp] theorem State.countedDown_dt (s : State) : s.countedDown.dt = countDown s.dt := rfl
@[simp] theorem State.countedDown_st (s : State) : s.countedDown.st = countDown s.st := rfl
@[simp] theorem State.countedDown_mem (s : State) : s.countedDown.mem = s.mem := rfl
@[simp] theorem State.countedDown_screen (s : State) : s.countedDown.screen = s.screen := rfl
@[simp] theorem State.countedDown_keys (s : State) : s.countedDown.keys = s.keys := rfl
@[simp] theorem State.countedDown_fault (s : State) : s.countedDown.fault = s.fault := rfl
@[simp] theorem State.countedDown_draws (s : State) : s.countedDown.draws = s.draws := rfl

@[simp] theorem hostReset_v (s : State) : (hostReset s).v = State.reset.v := rfl
@[simp] theorem hostReset_pc (s : State) : (hostReset s).pc = State.reset.pc := rfl
@[simp] theorem hostReset_i (s : State) : (hostReset s).i = State.reset.i := rfl
@[simp] theorem hostReset_stack (s : State) : (hostReset s).stack = State.reset.stack := rfl
@[simp] theorem hostReset_sp (s : State) : (hostReset s).sp = State.reset.sp := rfl
@[simp] theorem hostReset_dt (s : State) : (hostReset s).dt = State.reset.dt := rfl
@[simp] theorem hostReset_st (s : State) : (hostReset s).st = State.reset.st := rfl
@[simp] theorem hostReset_mem (s : State) : (hostReset s).mem = State.reset.mem := rfl
@[simp] theorem hostReset_screen (s : State) : (hostReset s).screen = State.reset.screen := rfl
@[simp] theorem hostReset_keys (s : State) : (hostReset s).keys = State.reset.keys := rfl
@[simp] theorem hostReset_fault (s : State) : (hostReset s).fault = State.reset.fault := rfl
@[simp] theorem hostReset_draws (s : State) : (hostReset s).draws = s.draws := rfl

@[simp] theorem hostSetKey_v (k : Key) (b : Bool) (s : State) : (hostSetKey k b s).v = s.v := rfl
@[simp] theorem hostSetKey_pc (k : Key) (b : Bool) (s : State) : (hostSetKey k b s).pc = s.pc := rfl
@[simp] theorem hostSetKey_i (k : Key) (b : Bool) (s : State) : (hostSetKey k b s).i = s.i := rfl
@[simp] theorem hostSetKey_stack (k : Key) (b : Bool) (s : State) : (hostSetKey k b s).stack = s.stack := rfl
@[simp] theorem hostSetKey_sp (k : Key) (b : Bool) (s : State) : (hostSetKey k b s).sp = s.sp := rfl
@[simp] theorem hostSetKey_dt (k : Key) (b : Bool) (s : State) : (hostSetKey k b s).dt = s.dt := rfl
@[simp] theorem hostSetKey_st (k : Key) (b : Bool) (s : State) : (hostSetKey k b s).st = s.st := rfl
@[simp] theorem hostSetKey_mem (k : Key) (b : Bool) (s : State) : (hostSetKey k b s).mem = s.mem := rfl
@[simp] theorem hostSetKey_screen (k : Key) (b : Bool) (s : State) : (hostSetKey k b s).screen = s.screen := rfl
@[simp] theorem hostSetKey_keys (k : Key) (b : Bool) (s : State) : (hostSetKey k b s).keys = s.keys.set k b := rfl
@[simp] theorem hostSetKey_fault (k : Key) (b : Bool) (s : State) : (hostSetKey k b s).fault = s.fault := rfl
@[simp] theorem hostSetKey_draws (k : Key) (b : Bool) (s : State) : (hostSetKey k b s).draws = s.draws := rfl

@[simp] theorem hostWriteMem_v (a : Fin 4096) (b : Byte) (s : State) : (hostWriteMem a b s).v = s.v := rfl
@[simp] theorem hostWriteMem_pc (a : Fin 4096) (b : Byte) (s : State) : (hostWriteMem a b s).pc = s.pc := rfl
@[simp] theorem hostWriteMem_i (a : Fin 4096) (b : Byte) (s : State) : (hostWriteMem a b s).i = s.i := rfl
@[simp] theorem hostWriteMem_stack (a : Fin 4096) (b : Byte) (s : State) : (hostWriteMem a b s).stack = s.stack := rfl
@[simp] theorem hostWriteMem_sp (a : Fin 4096) (b : Byte) (s : State) : (hostWriteMem a b s).sp = s.sp := rfl
@[simp] theorem hostWriteMem_dt (a : Fin 4096) (b : Byte) (s : State) : (hostWriteMem a b s).dt = s.dt := rfl
@[simp] theorem hostWriteMem_st (a : Fin 4096) (b : Byte) (s : State) : (hostWriteMem a b s).st = s.st := rfl
@[simp] theorem hostWriteMem_mem (a : Fin 4096) (b : Byte) (s : State) : (hostWriteMem a b s).mem = s.mem.write a b := rfl
@[simp] theorem hostWriteMem_screen (a : Fin 4096) (b : Byte) (s : State) : (hostWriteMem a b s).screen = s.screen := rfl
@[simp] theorem hostWriteMem_keys (a : Fin 4096) (b : Byte) (s : State) : (hostWriteMem a b s).keys = s.keys := rfl
@[simp] theorem hostWriteMem_fault (a : Fin 4096) (b : Byte) (s : State) : (hostWriteMem a b s).fault = s.fault := rfl
@[simp] theorem hostWriteMem_draws (a : Fin 4096) (b : Byte) (s : State) : (hostWriteMem a b s).draws = s.draws := rfl

/-! ### The V registers -/

/-- V[j] after a write of V[x]. -/
@[simp] theorem State.getV_setV (s : State) (x j : Reg) (b : Byte) :
    (s.setV x b).getV j = if j = x then b else s.getV j := by
  simp only [State.getV, State.setV, Fin.getElem_fin, Vector.getElem_set, Fin.ext_iff, eq_comm]

/-- V[j] after a result and a flag are written: the flag is written last (spec R131). -/
@[simp] theorem State.getV_setVFlag (s : State) (x j : Reg) (r f : Byte) :
    (s.setVFlag x r f).getV j = if j = 15 then f else if j = x then r else s.getV j := by
  simp only [State.setVFlag, regF, State.getV_setV]

@[simp] theorem State.getV_setPc (s : State) (t : Word) (j : Reg) : (s.setPc t).getV j = s.getV j := rfl
@[simp] theorem State.getV_setI (s : State) (w : Word) (j : Reg) : (s.setI w).getV j = s.getV j := rfl
@[simp] theorem State.getV_setDt (s : State) (b : Byte) (j : Reg) : (s.setDt b).getV j = s.getV j := rfl
@[simp] theorem State.getV_setSt (s : State) (b : Byte) (j : Reg) : (s.setSt b).getV j = s.getV j := rfl
@[simp] theorem State.getV_setMem (s : State) (m : Memory) (j : Reg) : (s.setMem m).getV j = s.getV j := rfl
@[simp] theorem State.getV_setScreen (s : State) (p : Screen) (j : Reg) : (s.setScreen p).getV j = s.getV j := rfl
@[simp] theorem State.getV_latch (s : State) (r : FaultRecord) (j : Reg) : (s.latch r).getV j = s.getV j := rfl
@[simp] theorem State.getV_advance (s : State) (j : Reg) : s.advance.getV j = s.getV j := rfl
@[simp] theorem State.getV_rewind (s : State) (j : Reg) : s.rewind.getV j = s.getV j := rfl
@[simp] theorem State.getV_skipIf (s : State) (c : Bool) (j : Reg) : (s.skipIf c).getV j = s.getV j := by cases c <;> rfl
@[simp] theorem State.getV_draw_snd (s : State) (j : Reg) : s.draw.2.getV j = s.getV j := rfl

/-- Reading V by index is `getV`. -/
theorem State.getElem_v (s : State) (x : Reg) : s.v[x] = s.getV x := rfl

/-- Two states with the same fields are the same. -/
theorem State.ext_fields {s t : State}
    (hv : s.v = t.v) (hpc : s.pc = t.pc) (hi : s.i = t.i) (hstack : s.stack = t.stack) (hsp : s.sp = t.sp) (hdt : s.dt = t.dt)
    (hst : s.st = t.st) (hmem : s.mem = t.mem) (hscreen : s.screen = t.screen) (hkeys : s.keys = t.keys) (hfault : s.fault = t.fault) (hdraws : s.draws = t.draws) : s = t := by
  cases s; cases t; simp_all

end Sys2Proof.Machine
end

