-- ==== Sys2Proof/Laws/Memory.lean ====
section
/-! SUPPORT. What the memory operations do: read after write, the canonical form, blocks. -/

namespace Sys2Proof.Machine

/-! ### Lists of cells -/

theorem cellAt_insertCell (a b : Nat) (v : Byte) (cs : List Host.Cell) :
    cellAt b (insertCell a v cs) = if b = a then some v else cellAt b cs := by
  induction cs with
  | nil => simp [insertCell, cellAt, eq_comm]
  | cons c cs ih =>
    simp only [insertCell]
    split_ifs <;> simp_all [cellAt, eq_comm]

theorem cellAt_eraseCell (a b : Nat) (cs : List Host.Cell) :
    cellAt b (eraseCell a cs) = if b = a then none else cellAt b cs := by
  unfold eraseCell
  induction cs with
  | nil => simp [cellAt]
  | cons c cs ih =>
    by_cases hc : c.1 = a
    · simp only [List.filter_cons, hc, bne_self_eq_false, Bool.false_eq_true, if_false, ih, cellAt]
      by_cases hb : b = a
      · simp [hb]
      · simp [hb, Ne.symm hb]
    · simp only [List.filter_cons, bne_iff_ne, ne_eq, hc, not_false_eq_true, if_true, cellAt, ih]
      by_cases hb : b = a
      · subst hb; simp [hc]
      · simp [hb]

/-- The addresses of a list after an insertion. -/
theorem mem_insertCell {a : Nat} {v : Byte} {c : Host.Cell} {cs : List Host.Cell}
    (h : c ∈ insertCell a v cs) : c = (a, v) ∨ c ∈ cs := by
  induction cs with
  | nil => simpa [insertCell] using h
  | cons d ds ih =>
    simp only [insertCell] at h
    split_ifs at h
    · simpa using h
    · rcases List.mem_cons.1 h with h | h
      · exact .inl h
      · exact .inr (List.mem_cons_of_mem _ h)
    · rcases List.mem_cons.1 h with h | h
      · exact .inr (h ▸ List.mem_cons_self)
      · rcases ih h with h | h
        · exact .inl h
        · exact .inr (List.mem_cons_of_mem _ h)

/-- Insertion keeps the addresses strictly rising. -/
theorem insertCell_pairwise (a : Nat) (v : Byte) {cs : List Host.Cell}
    (h : cs.Pairwise (fun c d => c.1 < d.1)) : (insertCell a v cs).Pairwise (fun c d => c.1 < d.1) := by
  induction cs with
  | nil => simp [insertCell]
  | cons d ds ih =>
    have hd := List.pairwise_cons.1 h
    simp only [insertCell]
    split_ifs with h1 h2
    · refine List.pairwise_cons.2 ⟨fun c hc => ?_, h⟩
      rcases List.mem_cons.1 hc with rfl | hc
      · exact h1
      · exact h1.trans (hd.1 c hc)
    · exact List.pairwise_cons.2 ⟨fun c hc => h2 ▸ hd.1 c hc, hd.2⟩
    · refine List.pairwise_cons.2 ⟨fun c hc => ?_, ih hd.2⟩
      rcases mem_insertCell hc with rfl | hc
      · exact show d.1 < a by omega
      · exact hd.1 c hc

/-! ### One byte -/

/-- A read after a write (spec R59): the byte written at its address, and every other address as before. -/
theorem Memory.byteAt_write (m : Memory) (a b : Nat) (v : Byte) :
    (m.write a v).byteAt b = if b = a ∧ a < 4096 then v else m.byteAt b := by
  unfold Memory.write Memory.byteAt
  split_ifs with h1 h2 h3 h3 h3
  · rw [cellAt_eraseCell, if_pos h3.1, h3.1, h2]; rfl
  · rw [cellAt_eraseCell, if_neg (fun hb => h3 ⟨hb, h1⟩)]
  · rw [cellAt_insertCell, if_pos h3.1]; rfl
  · rw [cellAt_insertCell, if_neg (fun hb => h3 ⟨hb, h1⟩)]
  · exact absurd h3.2 h1
  · rfl

/-- `read` is `byteAt` inside memory (spec R53). -/
theorem Memory.read_eq (m : Memory) (a : Nat) : m.read a = if a < 4096 then some (m.byteAt a) else none := rfl

/-- Memories that hold the same bytes read the same. -/
theorem Memory.read_congr {m m' : Memory} {a : Nat} (h : m.byteAt a = m'.byteAt a) : m.read a = m'.read a := by
  simp only [Memory.read, h]

/-- Every write keeps the canonical form. -/
theorem Memory.write_wf {m : Memory} (h : m.wf) (a : Nat) (v : Byte) : (m.write a v).wf := by
  unfold Memory.write
  split_ifs with ha hv
  · exact ⟨h.1.filter _, fun c hc => h.2 c (List.mem_of_mem_filter hc)⟩
  · refine ⟨insertCell_pairwise a v h.1, fun c hc => ?_⟩
    rcases mem_insertCell hc with rfl | hc
    · exact ⟨ha, hv⟩
    · exact h.2 c hc
  · exact h

/-- Reset memory is canonical. -/
theorem Memory.reset_wf : State.reset.mem.wf := ⟨List.Pairwise.nil, by simp [State.reset]⟩

/-- An unwritten byte is the reset content (spec R47). -/
theorem Memory.byteAt_reset (a : Nat) : State.reset.mem.byteAt a = Memory.resetByte a := rfl

/-! ### Blocks -/

/-- A block write, byte by byte: inside the block the byte written, elsewhere the byte before. -/
theorem Memory.byteAt_writeFrom (m : Memory) (base : Nat) (bs : List Byte) (a : Nat) :
    (m.writeFrom base bs).byteAt a =
      if h : base ≤ a ∧ a < base + bs.length ∧ a < 4096 then bs[a - base]'(by omega) else m.byteAt a := by
  induction bs generalizing m base with
  | nil => rw [dif_neg (by simp only [List.length_nil]; omega)]; rfl
  | cons b bs ih =>
    simp only [Memory.writeFrom, ih, Memory.byteAt_write, List.length_cons]
    by_cases h1 : a = base
    · subst h1
      by_cases h2 : a < 4096
      · rw [dif_neg (by omega), if_pos ⟨rfl, h2⟩, dif_pos (by omega)]; simp
      · rw [dif_neg (by omega), if_neg (by omega), dif_neg (by omega)]
    · by_cases h2 : base ≤ a ∧ a < base + (bs.length + 1) ∧ a < 4096
      · rw [dif_pos (by omega), dif_pos h2]
        simp only [List.getElem_cons, show a - base ≠ 0 by omega, dif_neg, not_false_eq_true]
        congr 1
      · rw [dif_neg (by omega), dif_neg h2, if_neg (by omega)]

/-- Byte k of a block that was written reads back (spec R59). -/
theorem Memory.read_writeFrom_inside (m : Memory) {base k : Nat} {bs : List Byte} (hk : k < bs.length)
    (h : base + k < 4096) : (m.writeFrom base bs).read (base + k) = some bs[k] := by
  rw [Memory.read_eq, if_pos h, Memory.byteAt_writeFrom, dif_pos (by omega)]
  simp only [Nat.add_sub_cancel_left]

/-- Every address outside a block reads as before it was written (spec R59). -/
theorem Memory.read_writeFrom_outside (m : Memory) {base a : Nat} {bs : List Byte}
    (h : a < base ∨ base + bs.length ≤ a) : (m.writeFrom base bs).read a = m.read a := by
  refine Memory.read_congr ?_
  rw [Memory.byteAt_writeFrom, dif_neg (by omega)]

/-- Every block write keeps the canonical form. -/
theorem Memory.writeFrom_wf {m : Memory} (h : m.wf) (base : Nat) (bs : List Byte) : (m.writeFrom base bs).wf := by
  induction bs generalizing m base with
  | nil => exact h
  | cons b bs ih => exact ih (Memory.write_wf h base b) (base + 1)

/-- The range check in closed form: it fails exactly when the block is not empty and passes 0xFFF, and then at the
lowest address outside memory. -/
theorem firstOutside_eq (base n : Nat) :
    firstOutside base n = if n ≠ 0 ∧ 4096 < base + n then some (max base 4096) else none := by
  unfold firstOutside
  induction n with
  | zero => simp
  | succ n ih =>
    rw [List.range_succ, List.map_append, List.find?_append, ih]
    by_cases h : n ≠ 0 ∧ 4096 < base + n
    · rw [if_pos h, if_pos (by omega)]; rfl
    · rw [if_neg h, Option.none_or]
      by_cases h2 : 4096 ≤ base + n
      · rw [if_pos (by omega)]
        simp only [List.map_cons, List.map_nil, List.find?_cons, decide_eq_true h2]
        congr 1; omega
      · rw [if_neg (by omega)]
        simp only [List.map_cons, List.map_nil, List.find?_cons, decide_eq_false h2, List.find?_nil]

/-- A block inside memory reads its bytes. -/
theorem Memory.readBlock_ok (m : Memory) {base n : Nat} (h : n = 0 ∨ base + n ≤ 4096) :
    m.readBlock base n = .ok ((List.range n).map (fun k => m.byteAt (base + k))) := by
  unfold Memory.readBlock
  rw [firstOutside_eq, if_neg (by omega)]

/-- A block that passes 0xFFF is refused at its lowest address outside memory. -/
theorem Memory.readBlock_error (m : Memory) {base n : Nat} (h : n ≠ 0 ∧ 4096 < base + n) :
    m.readBlock base n = .error (max base 4096) := by
  unfold Memory.readBlock
  rw [firstOutside_eq, if_pos h]

/-- A block inside memory is written. -/
theorem Memory.writeBlock_ok (m : Memory) {base : Nat} {bs : List Byte} (h : bs.length = 0 ∨ base + bs.length ≤ 4096) :
    m.writeBlock base bs = .ok (m.writeFrom base bs) := by
  unfold Memory.writeBlock
  rw [firstOutside_eq, if_neg (by omega)]

/-- A block that passes 0xFFF is refused at its lowest address outside memory, with nothing written. -/
theorem Memory.writeBlock_error (m : Memory) {base : Nat} {bs : List Byte} (h : bs.length ≠ 0 ∧ 4096 < base + bs.length) :
    m.writeBlock base bs = .error (max base 4096) := by
  unfold Memory.writeBlock
  rw [firstOutside_eq, if_pos h]

end Sys2Proof.Machine
end

