-- ==== Sys2Proof/Laws/Block.lean ====
section
/-! SUPPORT. Runs of the block's operations, the ROM load and key settings: what each can do. -/

namespace Sys2Proof.Machine

/-- A run is its first operation and then the rest (spec R43). -/
theorem performAll_cons (op : Op) (ops : List Op) (s : State) :
    performAll (op :: ops) s = (perform op s).bind (fun r => performAll ops r.1) := by
  simp only [performAll]
  cases perform op s <;> rfl

/-- One run after another. -/
theorem performAll_append (as bs : List Op) (s : State) :
    performAll (as ++ bs) s = (performAll as s).bind (performAll bs) := by
  induction as generalizing s with
  | nil => rfl
  | cons op as ih =>
    simp only [List.cons_append, performAll_cons, Option.bind_assoc]
    exact congrArg _ (funext fun r => ih r.1)

/-- A STEP that completes is performed (spec R37). -/
theorem perform_step_next {s t : State} (h : step s = .next t) : perform .step s = some (t, .silent) := by
  simp only [perform, performStep, h]

/-- A run of STEPs alone is a run of the block (spec R268). -/
theorem performAll_steps {k : Nat} {s t : State} (h : StepsOnly k s t) :
    performAll (List.replicate k .step) s = some t := by
  induction k generalizing s with
  | zero => exact congrArg some (Host.Outcome.next.inj h)
  | succ k ih =>
    simp only [StepsOnly, Host.Core.run] at h
    split at h
    · rename_i u hu
      rw [List.replicate_succ, performAll_cons, perform_step_next hu]
      exact ih h
    · cases h
    · cases h

/-- A fuel end is not faulted (spec R44, R268). -/
theorem FuelEnd.not_faulted {k : Nat} {s t : State} (h : FuelEnd k s t) : ¬ Faulted t := h.choose_spec.2.2.2

/-- A spin end is not faulted (spec R44, R268). -/
theorem SpinEnd.not_faulted {s : State} (h : SpinEnd s) : ¬ Faulted s := fun hf => hf h.1

/-- Loading a ROM that fits writes its bytes from 0x200 up (spec R42). -/
theorem loadRom_ok {rom : List Byte} (h : rom.length ≤ 3584) (s : State) :
    loadRom rom s = some (s.setMem (s.mem.writeFrom 0x200 rom)) := if_pos h

/-- Loading a block of bytes is a run of HOST_WRITE_MEM (spec R42). -/
theorem performAll_writeFrom (bs : List Byte) (base : Nat) (s : State) (h : base + bs.length ≤ 4096) :
    ∃ ops : List Op, performAll ops s = some (s.setMem (s.mem.writeFrom base bs)) := by
  induction bs generalizing base s with
  | nil => exact ⟨[], rfl⟩
  | cons b bs ih =>
    simp only [List.length_cons] at h
    obtain ⟨ops, ho⟩ := ih (base + 1) (hostWriteMem ⟨base, by omega⟩ b s) (by omega)
    exact ⟨.writeMem ⟨base, by omega⟩ b :: ops, ho⟩

/-- Key settings are a run of HOST_SET_KEY (spec R40). -/
theorem performAll_setKeys (ks : List (Key × Bool)) (s : State) :
    ∃ ops : List Op, performAll ops s = some (hostSetKeys ks s) := by
  induction ks generalizing s with
  | nil => exact ⟨[], rfl⟩
  | cons kb ks ih =>
    obtain ⟨ops, ho⟩ := ih (hostSetKey kb.1 kb.2 s)
    exact ⟨.setKey kb.1 kb.2 :: ops, ho⟩

/-- Key settings change the keys alone (spec R40). -/
theorem hostSetKeys_frame (ks : List (Key × Bool)) (s : State) :
    hostSetKeys ks s = { s with keys := (hostSetKeys ks s).keys } := by
  induction ks generalizing s with
  | nil => rfl
  | cons kb ks ih => exact ih (hostSetKey kb.1 kb.2 s)

/-- Settings after settings. -/
theorem hostSetKeys_append (as bs : List (Key × Bool)) (s : State) :
    hostSetKeys (as ++ bs) s = hostSetKeys bs (hostSetKeys as s) := by
  induction as generalizing s with
  | nil => rfl
  | cons kb as ih => exact ih (hostSetKey kb.1 kb.2 s)

/-- A key that no setting names keeps its state (spec R40). -/
theorem hostSetKeys_unnamed {ks : List (Key × Bool)} {k : Key} (h : ∀ b : Bool, (k, b) ∉ ks) (s : State) :
    (hostSetKeys ks s).keys[k] = s.keys[k] := by
  induction ks generalizing s with
  | nil => rfl
  | cons kb ks ih =>
    have hne : kb.1.val ≠ k.val := fun e => h kb.2 (by rw [← Fin.ext e]; exact List.mem_cons_self)
    rw [hostSetKeys, ih (fun b hb => h b (List.mem_cons_of_mem _ hb))]
    simp only [hostSetKey_keys, Fin.getElem_fin]
    exact Vector.getElem_set_ne _ _ hne

end Sys2Proof.Machine
end

