-- ==== Sys2Proof/Laws/Decode.lean ====
section
/-! SUPPORT. The masks of the opcode table as arithmetic on the word (spec R9, R74). -/

namespace Sys2Proof

/-- A mask as arithmetic: two numbers below 2^16 that agree on each of their 16 bits are the same. -/
theorem eq_of_testBit_lt_16 {a b : Nat} (ha : a < 65536) (hb : b < 65536)
    (h : ∀ k < 16, a.testBit k = b.testBit k) : a = b := by
  apply Nat.eq_of_testBit_eq
  intro k
  by_cases hk : k < 16
  · exact h k hk
  · have hp : 65536 ≤ 2 ^ k := Nat.pow_le_pow_right (n := 2) (by decide) (show 16 ≤ k by omega)
    rw [Nat.testBit_lt_two_pow (by omega), Nat.testBit_lt_two_pow (by omega)]

/-- Masking with 0xF000 keeps the leading nibble. -/
theorem toNat_and_F000 (w : Word) : (w &&& 0xF000#16).toNat = w.toNat / 4096 * 4096 := by
  have hw := w.isLt
  rw [BitVec.toNat_and]
  refine eq_of_testBit_lt_16 (Nat.lt_of_le_of_lt Nat.and_le_left hw) (by omega) fun k hk => ?_
  rw [Nat.testBit_and]
  simp only [Nat.testBit_eq_decide_div_mod_eq, ← Bool.decide_and, decide_eq_decide]
  interval_cases k <;> norm_num <;> omega

/-- Masking with 0xF00F keeps the leading and the last nibble. -/
theorem toNat_and_F00F (w : Word) : (w &&& 0xF00F#16).toNat = w.toNat / 4096 * 4096 + w.toNat % 16 := by
  have hw := w.isLt
  rw [BitVec.toNat_and]
  refine eq_of_testBit_lt_16 (Nat.lt_of_le_of_lt Nat.and_le_left hw) (by omega) fun k hk => ?_
  rw [Nat.testBit_and]
  simp only [Nat.testBit_eq_decide_div_mod_eq, ← Bool.decide_and, decide_eq_decide]
  interval_cases k <;> norm_num <;> omega

/-- Masking with 0xF0FF keeps the leading nibble and the low byte. -/
theorem toNat_and_F0FF (w : Word) : (w &&& 0xF0FF#16).toNat = w.toNat / 4096 * 4096 + w.toNat % 256 := by
  have hw := w.isLt
  rw [BitVec.toNat_and]
  refine eq_of_testBit_lt_16 (Nat.lt_of_le_of_lt Nat.and_le_left hw) (by omega) fun k hk => ?_
  rw [Nat.testBit_and]
  simp only [Nat.testBit_eq_decide_div_mod_eq, ← Bool.decide_and, decide_eq_decide]
  interval_cases k <;> norm_num <;> omega

/-- Masking with 0xFFFF keeps the word. -/
theorem and_FFFF (w : Word) : w &&& 0xFFFF#16 = w := BitVec.and_allOnes

/-- A row that fixes the leading nibble covers the words with that nibble. -/
theorem covers_F000 (name : String) (p w : Word) :
    OpcodeRow.covers ⟨name, 0xF000, p⟩ w = true ↔ w.toNat / 4096 * 4096 = p.toNat := by
  rw [← toNat_and_F000, ← BitVec.toNat_eq]
  exact beq_iff_eq

/-- A row that fixes the leading and the last nibble. -/
theorem covers_F00F (name : String) (p w : Word) :
    OpcodeRow.covers ⟨name, 0xF00F, p⟩ w = true ↔ w.toNat / 4096 * 4096 + w.toNat % 16 = p.toNat := by
  rw [← toNat_and_F00F, ← BitVec.toNat_eq]
  exact beq_iff_eq

/-- A row that fixes the leading nibble and the low byte. -/
theorem covers_F0FF (name : String) (p w : Word) :
    OpcodeRow.covers ⟨name, 0xF0FF, p⟩ w = true ↔ w.toNat / 4096 * 4096 + w.toNat % 256 = p.toNat := by
  rw [← toNat_and_F0FF, ← BitVec.toNat_eq]
  exact beq_iff_eq

/-- A row that fixes the whole word. -/
theorem covers_FFFF (name : String) (p w : Word) : OpcodeRow.covers ⟨name, 0xFFFF, p⟩ w = true ↔ w = p := by
  conv_rhs => rw [← and_FFFF w]
  exact beq_iff_eq

/-- The two bytes of a word make the word (spec R54). -/
theorem wordOfBytes_toNat (hi lo : Byte) : (wordOfBytes hi lo).toNat = hi.toNat * 256 + lo.toNat := by
  have h1 := hi.isLt
  have h2 := lo.isLt
  simp only [wordOfBytes, BitVec.toNat_ofNat]
  omega

/-- A word laid out in memory order reads back (spec R54). -/
theorem wordOfBytes_bytesOfWord (w : Word) :
    wordOfBytes (BitVec.ofNat 8 (w.toNat / 256)) (BitVec.ofNat 8 w.toNat) = w := by
  have hw := w.isLt
  apply BitVec.eq_of_toNat_eq
  simp only [wordOfBytes_toNat, BitVec.toNat_ofNat]
  omega

end Sys2Proof
end

