-- ==== Sys2Proof/Laws/Ops.lean ====
section
/-! SUPPORT. One lemma for each shared operation over registers, stack, keys, faults, operands and flags, which says once everything it can do. -/

namespace Sys2Proof.Machine

/-! ### Registers -/

/-- Loading bytes into consecutive registers: V[k + n] gets byte n, the others stay (spec R166). -/
theorem setRegsFrom_getElem (v : Vector Byte 16) (k : Nat) (bs : List Byte) (j : Fin 16) :
    (setRegsFrom v k bs)[j] =
      if h : k ≤ j.val ∧ j.val < k + bs.length then bs[j.val - k]'(by omega) else v[j] := by
  induction bs generalizing v k with
  | nil => rw [dif_neg (by simp only [List.length_nil]; omega)]; rfl
  | cons b bs ih =>
    simp only [setRegsFrom, ih, List.length_cons]
    by_cases h1 : j.val = k
    · rw [dif_neg (by omega), dif_pos (by omega)]
      simp [Fin.getElem_fin, h1]
    · by_cases h2 : k ≤ j.val ∧ j.val < k + (bs.length + 1)
      · rw [dif_pos (by omega), dif_pos h2]
        simp only [List.getElem_cons, show j.val - k ≠ 0 by omega, dif_neg, not_false_eq_true]
        congr 1
      · rw [dif_neg (by omega), dif_neg h2]
        simp only [Fin.getElem_fin]
        rw [Vector.getElem_setIfInBounds_ne _ (Ne.symm h1)]

/-- FX55 stores X + 1 registers (spec R165). -/
@[simp] theorem State.regsUpTo_length (s : State) (x : Reg) : (s.regsUpTo x).length = x.val + 1 := by
  simp only [State.regsUpTo, List.length_take, Vector.length_toList]
  omega

/-- The k-th of them is V[k] (spec R165). -/
theorem State.regsUpTo_getElem (s : State) (x : Reg) (k : Nat) (h : k < x.val + 1) :
    (s.regsUpTo x)[k]'(by rw [State.regsUpTo_length]; exact h) = s.getV ⟨k, by omega⟩ := by
  simp [State.regsUpTo, State.getV]

/-! ### Stack -/

/-- A push on a stack that is not full (spec R101). -/
theorem State.push_ok (s : State) (w : Word) (h : s.sp.val < 16) :
    s.push w = some { s with stack := s.stack.set s.sp.val w, sp := ⟨s.sp.val + 1, by omega⟩ } := by
  simp only [State.push, dif_pos h]

/-- A push on a full stack (spec R101). -/
theorem State.push_full (s : State) (w : Word) (h : s.sp.val = 16) : s.push w = none := by
  simp only [State.push, dif_neg (show ¬ s.sp.val < 16 by omega)]

/-- A pop of a stack that is not empty (spec R102). -/
theorem State.pop_ok (s : State) (h : s.sp.val ≠ 0) :
    s.pop = some (s.stack[s.sp.val - 1]'(by omega), { s with sp := ⟨s.sp.val - 1, by omega⟩ }) := by
  simp only [State.pop, dif_neg h]

/-- A pop of an empty stack (spec R102). -/
theorem State.pop_empty (s : State) (h : s.sp.val = 0) : s.pop = none := by
  simp only [State.pop, dif_pos h]

/-! ### Keys -/

/-- The lowest pressed key is pressed, and no lower one is (spec R213). -/
theorem lowestPressed_eq_some {keys : Vector Bool 16} {j : Key} :
    lowestPressed keys = some j ↔ keys[j] = true ∧ ∀ k : Key, k < j → keys[k] = false := by
  unfold lowestPressed
  rw [List.find?_eq_some_iff_getElem]
  constructor
  · rintro ⟨hj, n, hn, rfl, hlow⟩
    refine ⟨hj, fun k hk => ?_⟩
    have hk' : k.val < n := by simpa [Fin.lt_def] using hk
    simpa using hlow k.val hk'
  · rintro ⟨hj, hlow⟩
    refine ⟨hj, j.val, by simp, by simp, fun n hn => ?_⟩
    simpa using hlow ⟨n, by omega⟩ (by simpa [Fin.lt_def] using hn)

/-- No key is found exactly when none is pressed (spec R213). -/
theorem lowestPressed_eq_none {keys : Vector Bool 16} :
    lowestPressed keys = none ↔ ∀ k : Key, keys[k] = false := by
  simp [lowestPressed, List.find?_eq_none]

/-- The key index is V[X] up to 15 (spec R210). -/
theorem keyIndex_ok (s : State) (x : Reg) (h : (s.getV x).toNat < 16) :
    keyIndex s x = some ⟨(s.getV x).toNat, h⟩ := dif_pos h

/-- Above 15 there is none (spec R210). -/
theorem keyIndex_none (s : State) (x : Reg) (h : 15 < (s.getV x).toNat) : keyIndex s x = none :=
  dif_neg (by omega)

/-! ### Faults -/

/-- Taking a fault answers the record and the state with the record latched (spec R236). -/
@[simp] theorem takeFault_eq (r : FaultRecord) (s : State) : takeFault r s = .fault (.fatal r (s.latch r)) := rfl

/-- A fault in the execute stage (spec R232, R234). -/
@[simp] theorem raise_eq (i : Instr) (c : FaultCause) (s : State) :
    raise i c s = .fault (.fatal ⟨c, s.pc - 2, some (encode i)⟩ (s.latch ⟨c, s.pc - 2, some (encode i)⟩)) := rfl

/-- A fault at decode (spec R232, R234). -/
@[simp] theorem raiseUnimplemented_eq (w : Word) (s : State) :
    raiseUnimplemented w s =
      .fault (.fatal ⟨.unimplementedOpcode w, s.pc - 2, some w⟩ (s.latch ⟨.unimplementedOpcode w, s.pc - 2, some w⟩)) := rfl

/-- A fault at fetch (spec R232, R234). -/
@[simp] theorem raiseFetch_eq (s : State) :
    raiseFetch s = .fault (.fatal ⟨.fetchOutOfRange s.pc, s.pc, none⟩ (s.latch ⟨.fetchOutOfRange s.pc, s.pc, none⟩)) := rfl

/-! ### Operands -/

/-- The zero-extended address (spec R12). -/
@[simp] theorem zext16_toNat (nnn : Addr) : (zext16 nnn).toNat = nnn.toNat := by
  simp only [zext16, BitVec.toNat_setWidth]
  exact Nat.mod_eq_of_lt (by have := nnn.isLt; omega)

/-- BNNN's target is the exact sum (spec R105). -/
@[simp] theorem indexedTarget_toNat (s : State) (nnn : Addr) :
    (indexedTarget s nnn).toNat = (s.getV 0).toNat + nnn.toNat := by
  have h1 := (s.getV 0).isLt
  have h2 := nnn.isLt
  simp only [indexedTarget, BitVec.toNat_ofNat]
  omega

/-- FX1E's sum wraps at 16 bits (spec R161). -/
@[simp] theorem indexSum_toNat (s : State) (x : Reg) :
    (indexSum s x).toNat = (s.i.toNat + (s.getV x).toNat) % 65536 := by
  simp [indexSum]

/-- FX29's product is exact (spec R162). -/
@[simp] theorem glyphAddress_toNat (s : State) (x : Reg) :
    (glyphAddress s x).toNat = (s.getV x).toNat * 5 := by
  have h := (s.getV x).isLt
  simp only [glyphAddress, BitVec.toNat_ofNat]
  omega

/-- The BCD converter answers three digits (spec R163). -/
@[simp] theorem bcdDigits_length (b : Byte) : (bcdDigits b).length = 3 := rfl

/-! ### Flags -/

/-- The sum mod 256 (spec R130). -/
@[simp] theorem sumByte_toNat (a b : Byte) : (sumByte a b).toNat = (a.toNat + b.toNat) % 256 := by
  simp [sumByte]

/-- The difference mod 256 (spec R130). -/
@[simp] theorem differenceByte_toNat (a b : Byte) :
    ((differenceByte a b).toNat : Int) = ((a.toNat : Int) - (b.toNat : Int)) % 256 := by
  simp only [differenceByte, BitVec.toNat_ofInt]
  omega

/-- A flag is 1 or 0. -/
@[simp] theorem flagByte_toNat (c : Bool) : (flagByte c).toNat = if c then 1 else 0 := by
  cases c <;> rfl

/-- A right shift halves (spec R143). -/
@[simp] theorem shiftRightOne_toNat (a : Byte) : (shiftRightOne a).toNat = a.toNat / 2 := by
  simp [shiftRightOne, Nat.shiftRight_eq_div_pow]

/-- A left shift doubles mod 256 (spec R145). -/
@[simp] theorem shiftLeftOne_toNat (a : Byte) : (shiftLeftOne a).toNat = a.toNat * 2 % 256 := by
  simp [shiftLeftOne, Nat.shiftLeft_eq]

/-- The old bit 0 (spec R143). -/
@[simp] theorem shiftedOutRight_toNat (a : Byte) : (shiftedOutRight a).toNat = a.toNat % 2 := by
  simp only [shiftedOutRight, flagByte_toNat, BitVec.getLsbD, Nat.testBit_zero, decide_eq_true_eq]
  split_ifs <;> omega

/-- The old bit 7 (spec R145). -/
@[simp] theorem shiftedOutLeft_toNat (a : Byte) : (shiftedOutLeft a).toNat = a.toNat / 128 := by
  have h := a.isLt
  simp only [shiftedOutLeft, flagByte_toNat, BitVec.getLsbD, Nat.testBit_eq_decide_div_mod_eq, decide_eq_true_eq]
  split_ifs <;> omega

/-- A countdown stops at 0 (spec R240). -/
@[simp] theorem countDown_toNat (t : Byte) : (countDown t).toNat = t.toNat - 1 := by
  have h := t.isLt
  unfold countDown
  split_ifs with h0
  · subst h0; rfl
  · have : t.toNat ≠ 0 := fun hz => h0 (BitVec.eq_of_toNat_eq hz)
    have h1 : (1 : Byte).toNat = 1 := rfl
    rw [BitVec.toNat_sub, h1]
    omega

end Sys2Proof.Machine
end

