-- ==== Sys2Proof/Laws/Sprite.lean ====
section
/-! SUPPORT. What drawing a row and a sprite does to each pixel and to the collision accumulator (spec R191-R193). -/

namespace Sys2Proof.Machine

/-- A toggle changes its own cell and no other. -/
theorem Screen.pixel_toggle (p : Screen) (x x' : Fin 64) (y y' : Fin 32) :
    Screen.pixel (Screen.toggle p x y) x' y' =
      if x' = x ∧ y' = y then !(Screen.pixel p x y) else Screen.pixel p x' y' := by
  simp only [Screen.pixel, Screen.toggle, Fin.getElem_fin, Vector.getElem_set, Fin.ext_iff]
  by_cases hy : y.val = y'.val
  · by_cases hx : x.val = x'.val
    · simp [hx, hy]
    · simp [hx, Ne.symm hx, hy]
  · simp [hy, Ne.symm hy]

/-- Every pixel of the blank screen is unset (spec R190). -/
@[simp] theorem blankScreen_pixel (x : Fin 64) (y : Fin 32) : Screen.pixel blankScreen x y = false := by
  simp [Screen.pixel, blankScreen]

/-- Two screens with the same pixels are the same. -/
theorem Screen.ext_pixel {p q : Screen} (h : ∀ x y, Screen.pixel p x y = Screen.pixel q x y) : p = q := by
  apply Vector.ext
  intro j hj
  apply Vector.ext
  intro k hk
  exact h ⟨k, hk⟩ ⟨j, hj⟩

/-- The 8 columns of a row are distinct (spec R193). -/
theorem wrapColumn_injective (x0 : Fin 64) {c d : Nat} (hc : c < 64) (hd : d < 64)
    (h : wrapColumn x0 c = wrapColumn x0 d) : c = d := by
  have := congrArg Fin.val h
  simp only [wrapColumn] at this
  omega

/-- The rows of a sprite are distinct (spec R193). -/
theorem wrapRow_injective (y0 : Fin 32) {r q : Nat} (h : wrapRow y0 r = wrapRow y0 q) (hl : r < q + 32)
    (hg : q < r + 32) : r = q := by
  have := congrArg Fin.val h
  simp only [wrapRow] at this
  omega

/-- The columns a partial row of `n` columns at row `y` sets bits in. -/
def rowHit (x0 : Fin 64) (row : Byte) (n : Nat) (x : Fin 64) : Prop :=
  ∃ c, c < n ∧ x = wrapColumn x0 c ∧ spriteBit row c = true

/-- Drawing the first `n` columns of a row: every pixel under a set bit is flipped, and the accumulator notes whether
one of them was set. -/
theorem drawColumns_spec (cv : Canvas) (x0 : Fin 64) (y : Fin 32) (row : Byte) (n : Nat) (hn : n ≤ 64) :
    (∀ x' y', Screen.pixel ((List.range n).foldl
        (fun cv c => if spriteBit row c then cv.plot (wrapColumn x0 c) y else cv) cv).screen x' y' = true ↔
      (Screen.pixel cv.screen x' y' = true ↔ ¬ (y' = y ∧ rowHit x0 row n x'))) ∧
    (((List.range n).foldl
        (fun cv c => if spriteBit row c then cv.plot (wrapColumn x0 c) y else cv) cv).collision = true ↔
      cv.collision = true ∨ ∃ x', rowHit x0 row n x' ∧ Screen.pixel cv.screen x' y = true) := by
  induction n with
  | zero => simp [rowHit]
  | succ n ih =>
    obtain ⟨ihp, ihc⟩ := ih (by omega)
    rw [List.range_succ, List.foldl_append]
    set cv' := (List.range n).foldl
      (fun cv c => if spriteBit row c then cv.plot (wrapColumn x0 c) y else cv) cv with hcv'
    have fresh : ¬ rowHit x0 row n (wrapColumn x0 n) := by
      rintro ⟨c, hc, heq, -⟩
      have := wrapColumn_injective x0 (by omega) (by omega) heq
      omega
    have grow : ∀ x', rowHit x0 row (n + 1) x' ↔
        rowHit x0 row n x' ∨ (x' = wrapColumn x0 n ∧ spriteBit row n = true) := by
      intro x'
      constructor
      · rintro ⟨c, hc, hx, hb⟩
        rcases Nat.lt_succ_iff_lt_or_eq.1 hc with h | rfl
        · exact .inl ⟨c, h, hx, hb⟩
        · exact .inr ⟨hx, hb⟩
      · rintro (⟨c, hc, hx, hb⟩ | ⟨hx, hb⟩)
        · exact ⟨c, by omega, hx, hb⟩
        · exact ⟨n, by omega, hx, hb⟩
    simp only [List.foldl_cons, List.foldl_nil]
    by_cases hb : spriteBit row n = true
    · simp only [hb, if_true, Canvas.plot, Bool.or_eq_true, ihc]
      constructor
      · intro x' y'
        rw [Screen.pixel_toggle]
        by_cases hxy : x' = wrapColumn x0 n ∧ y' = y
        · rw [if_pos hxy]
          obtain ⟨rfl, rfl⟩ := hxy
          have := ihp (wrapColumn x0 n) y'
          simp only [fresh, and_false, not_false_eq_true, iff_true] at this
          simp [grow, hb, Bool.eq_iff_iff.2 this]
        · rw [if_neg hxy, ihp]
          have : (y' = y ∧ rowHit x0 row (n + 1) x') ↔ (y' = y ∧ rowHit x0 row n x') := by
            rw [grow]
            constructor
            · rintro ⟨hy, h | ⟨hx, -⟩⟩
              · exact ⟨hy, h⟩
              · exact absurd ⟨hx, hy⟩ hxy
            · exact fun h => ⟨h.1, .inl h.2⟩
          rw [this]
      · have hpix := ihp (wrapColumn x0 n) y
        simp only [fresh, and_false, not_false_eq_true, iff_true] at hpix
        rw [hpix]
        constructor
        · rintro ((h | ⟨x', hx', hp⟩) | h)
          · exact .inl h
          · exact .inr ⟨x', (grow x').2 (.inl hx'), hp⟩
          · exact .inr ⟨_, (grow _).2 (.inr ⟨rfl, hb⟩), h⟩
        · rintro (h | ⟨x', hx', hp⟩)
          · exact .inl (.inl h)
          · rcases (grow x').1 hx' with h | ⟨rfl, -⟩
            · exact .inl (.inr ⟨x', h, hp⟩)
            · exact .inr hp
    · have same : ∀ x', rowHit x0 row (n + 1) x' ↔ rowHit x0 row n x' := by
        intro x'; rw [grow]; simp [hb]
      simp only [hb, Bool.false_eq_true, if_false, same]
      exact ⟨ihp, ihc⟩

/-- A row (spec R191). -/
theorem Canvas.drawRow_pixel (cv : Canvas) (x0 : Fin 64) (y : Fin 32) (row : Byte) (x' : Fin 64) (y' : Fin 32) :
    Screen.pixel (cv.drawRow x0 y row).screen x' y' = true ↔
      (Screen.pixel cv.screen x' y' = true ↔ ¬ (y' = y ∧ rowHit x0 row 8 x')) :=
  (drawColumns_spec cv x0 y row 8 (by decide)).1 x' y'

/-- The collision accumulator after a row (spec R192). -/
theorem Canvas.drawRow_collision (cv : Canvas) (x0 : Fin 64) (y : Fin 32) (row : Byte) :
    (cv.drawRow x0 y row).collision = true ↔
      cv.collision = true ∨ ∃ x', rowHit x0 row 8 x' ∧ Screen.pixel cv.screen x' y = true :=
  (drawColumns_spec cv x0 y row 8 (by decide)).2

/-- The pixel (x, y) lies under a set bit of the sprite `rows`, whose first row is row `r`. -/
def spriteHit (x0 : Fin 64) (y0 : Fin 32) (r : Nat) (rows : List Byte) (x : Fin 64) (y : Fin 32) : Prop :=
  ∃ k, ∃ h : k < rows.length, y = wrapRow y0 (r + k) ∧ rowHit x0 rows[k] 8 x

theorem spriteHit_cons (x0 : Fin 64) (y0 : Fin 32) (r : Nat) (row : Byte) (rows : List Byte) (x : Fin 64) (y : Fin 32) :
    spriteHit x0 y0 r (row :: rows) x y ↔
      (y = wrapRow y0 r ∧ rowHit x0 row 8 x) ∨ spriteHit x0 y0 (r + 1) rows x y := by
  constructor
  · rintro ⟨k, hk, hy, hx⟩
    cases k with
    | zero => exact .inl ⟨hy, hx⟩
    | succ k => exact .inr ⟨k, by simpa using hk, by rw [hy]; congr 1; omega, by simpa using hx⟩
  · rintro (⟨hy, hx⟩ | ⟨k, hk, hy, hx⟩)
    · exact ⟨0, by simp, by simpa using hy, by simpa using hx⟩
    · exact ⟨k + 1, by simpa using hk, by rw [hy]; congr 1; omega, by simpa using hx⟩

/-- Drawing rows flips every pixel under a set bit, once, and the accumulator notes whether one of them was set. -/
theorem Canvas.drawRows_spec (cv : Canvas) (x0 : Fin 64) (y0 : Fin 32) (r : Nat) (rows : List Byte)
    (hl : rows.length ≤ 32) :
    (∀ x y, Screen.pixel (cv.drawRows x0 y0 r rows).screen x y = true ↔
      (Screen.pixel cv.screen x y = true ↔ ¬ spriteHit x0 y0 r rows x y)) ∧
    ((cv.drawRows x0 y0 r rows).collision = true ↔
      cv.collision = true ∨ ∃ x y, spriteHit x0 y0 r rows x y ∧ Screen.pixel cv.screen x y = true) := by
  induction rows generalizing cv r with
  | nil => simp [Canvas.drawRows, spriteHit]
  | cons row rows ih =>
    have hlen : rows.length + 1 ≤ 32 := by simpa using hl
    obtain ⟨ihp, ihc⟩ := ih (cv.drawRow x0 (wrapRow y0 r) row) (r + 1) (by omega)
    have apart : ∀ x y, spriteHit x0 y0 (r + 1) rows x y → y ≠ wrapRow y0 r := by
      rintro x y ⟨k, hk, hy, -⟩ heq
      have := wrapRow_injective y0 (heq.symm.trans hy) (by omega) (by omega)
      omega
    constructor
    · intro x y
      simp only [Canvas.drawRows]
      rw [ihp, Canvas.drawRow_pixel, spriteHit_cons]
      by_cases h : spriteHit x0 y0 (r + 1) rows x y
      · have := apart x y h
        simp [h, this]
      · simp [h]
    · simp only [Canvas.drawRows]
      rw [ihc, Canvas.drawRow_collision]
      constructor
      · rintro ((h | ⟨x, hx, hp⟩) | ⟨x, y, hxy, hp⟩)
        · exact .inl h
        · exact .inr ⟨x, _, (spriteHit_cons ..).2 (.inl ⟨rfl, hx⟩), hp⟩
        · refine .inr ⟨x, y, (spriteHit_cons ..).2 (.inr hxy), ?_⟩
          rw [Canvas.drawRow_pixel] at hp
          exact hp.2 (fun h => apart x y hxy h.1)
      · rintro (h | ⟨x, y, hxy, hp⟩)
        · exact .inl (.inl h)
        · rcases (spriteHit_cons ..).1 hxy with ⟨rfl, hx⟩ | hxy
          · exact .inl (.inr ⟨x, hx, hp⟩)
          · refine .inr ⟨x, y, hxy, ?_⟩
            rw [Canvas.drawRow_pixel]
            exact ⟨fun _ h => apart x y hxy h.1, fun _ => hp⟩

/-- The sprite drawing unit (spec R191): every pixel under a set bit is flipped, no other changes. -/
theorem drawSprite_pixel (p : Screen) (x0 : Fin 64) (y0 : Fin 32) (rows : List Byte) (hl : rows.length ≤ 32)
    (x : Fin 64) (y : Fin 32) :
    Screen.pixel (drawSprite p x0 y0 rows).screen x y = true ↔
      (Screen.pixel p x y = true ↔ ¬ spriteHit x0 y0 0 rows x y) :=
  (Canvas.drawRows_spec _ x0 y0 0 rows hl).1 x y

/-- The collision detector (spec R192): set exactly when a set bit meets a set cell. -/
theorem drawSprite_collision (p : Screen) (x0 : Fin 64) (y0 : Fin 32) (rows : List Byte) (hl : rows.length ≤ 32) :
    (drawSprite p x0 y0 rows).collision = true ↔
      ∃ x y, spriteHit x0 y0 0 rows x y ∧ Screen.pixel p x y = true := by
  unfold drawSprite
  simpa using (Canvas.drawRows_spec { screen := p, collision := false } x0 y0 0 rows hl).2

/-- The sprite a state's memory holds at I: `spriteHit` over the bytes read is `underSprite` of Safety.lean. -/
theorem spriteHit_readBlock (s : State) (x0 : Fin 64) (y0 : Fin 32) (n : Nat) (x : Fin 64) (y : Fin 32) :
    spriteHit x0 y0 0 ((List.range n).map (fun k => s.mem.byteAt (s.i.toNat + k))) x y ↔
      underSprite s x0.val y0.val n x y := by
  unfold spriteHit rowHit underSprite spriteBit
  constructor
  · rintro ⟨k, hk, hy, c, hc, hx, hb⟩
    refine ⟨k, c, by simpa using hk, hc, by rw [hx]; rfl, by rw [hy]; simp [wrapRow], ?_⟩
    simpa using hb
  · rintro ⟨k, c, hk, hc, hx, hy, hb⟩
    refine ⟨k, by simpa using hk, Fin.ext (by simpa [wrapRow] using hy), c, hc, Fin.ext hx, ?_⟩
    simpa using hb

end Sys2Proof.Machine
end

