-- ==== Sys2Proof/Laws/Exec.lean ====
section
/-! SUPPORT. The meanings that branch, one equation for each branch: where they complete and with what, and where they fault. -/

namespace Sys2Proof.Machine

/-- CALL on a stack that is not full (spec R106). -/
theorem exec_call_ok (s : State) (nnn : Addr) (h : s.sp.val < 16) :
    exec (.call nnn) s =
      .next (State.setPc { s with stack := s.stack.set s.sp.val s.pc, sp := ⟨s.sp.val + 1, by omega⟩ } (zext16 nnn)) := by
  simp only [exec, execCall, s.push_ok s.pc h]

/-- CALL on a full stack (spec R101). -/
theorem exec_call_full (s : State) (nnn : Addr) (h : s.sp.val = 16) :
    exec (.call nnn) s = raise (.call nnn) .stackOverflow s := by
  simp only [exec, execCall, s.push_full s.pc h]

/-- RET on a stack that is not empty (spec R103). -/
theorem exec_ret_ok (s : State) (h : s.sp.val ≠ 0) :
    exec .ret s =
      .next (State.setPc { s with sp := ⟨s.sp.val - 1, by omega⟩ } (s.stack[s.sp.val - 1]'(by omega))) := by
  simp only [exec, execRet, s.pop_ok h]

/-- RET on an empty stack (spec R102). -/
theorem exec_ret_empty (s : State) (h : s.sp.val = 0) : exec .ret s = raise .ret .stackUnderflow s := by
  simp only [exec, execRet, s.pop_empty h]

/-- FX33 inside memory (spec R164). -/
theorem exec_ldBVx_ok (s : State) (x : Reg) (h : dataAddress s + 2 < 4096) :
    exec (.ldBVx x) s = .next (s.setMem (s.mem.writeFrom (dataAddress s) (bcdDigits (s.getV x)))) := by
  have hb : dataAddress s + (bcdDigits (s.getV x)).length ≤ 4096 := by rw [bcdDigits_length]; omega
  simp only [exec, execLdBVx, Memory.writeBlock_ok s.mem (.inr hb)]

/-- FX33 past the end of memory (spec R164). -/
theorem exec_ldBVx_fault (s : State) (x : Reg) (h : 4096 ≤ dataAddress s + 2) :
    exec (.ldBVx x) s = raise (.ldBVx x) (.memOutOfRange (max (dataAddress s) 4096)) s := by
  have hb : (bcdDigits (s.getV x)).length ≠ 0 ∧ 4096 < dataAddress s + (bcdDigits (s.getV x)).length := by
    rw [bcdDigits_length]; omega
  simp only [exec, execLdBVx, Memory.writeBlock_error s.mem hb]

/-- FX55 inside memory (spec R165). -/
theorem exec_ldMemVx_ok (s : State) (x : Reg) (h : dataAddress s + x.val < 4096) :
    exec (.ldMemVx x) s = .next (s.setMem (s.mem.writeFrom (dataAddress s) (s.regsUpTo x))) := by
  have hb : dataAddress s + (s.regsUpTo x).length ≤ 4096 := by rw [State.regsUpTo_length]; omega
  simp only [exec, execLdMemVx, Memory.writeBlock_ok s.mem (.inr hb)]

/-- FX55 past the end of memory (spec R165). -/
theorem exec_ldMemVx_fault (s : State) (x : Reg) (h : 4096 ≤ dataAddress s + x.val) :
    exec (.ldMemVx x) s = raise (.ldMemVx x) (.memOutOfRange (max (dataAddress s) 4096)) s := by
  have hb : (s.regsUpTo x).length ≠ 0 ∧ 4096 < dataAddress s + (s.regsUpTo x).length := by
    rw [State.regsUpTo_length]; omega
  simp only [exec, execLdMemVx, Memory.writeBlock_error s.mem hb]

/-- The bytes a block read gives. -/
abbrev bytesAtI (s : State) (n : Nat) : List Byte := (List.range n).map (fun k => s.mem.byteAt (dataAddress s + k))

/-- FX65 inside memory (spec R166). -/
theorem exec_ldVxMem_ok (s : State) (x : Reg) (h : dataAddress s + x.val < 4096) :
    exec (.ldVxMem x) s = .next (s.setRegs (setRegsFrom s.v 0 (bytesAtI s (x.val + 1)))) := by
  simp only [exec, execLdVxMem, Memory.readBlock_ok s.mem (n := x.val + 1) (.inr (show dataAddress s + (x.val + 1) ≤ 4096 by omega))]

/-- FX65 past the end of memory (spec R166). -/
theorem exec_ldVxMem_fault (s : State) (x : Reg) (h : 4096 ≤ dataAddress s + x.val) :
    exec (.ldVxMem x) s = raise (.ldVxMem x) (.memOutOfRange (max (dataAddress s) 4096)) s := by
  simp only [exec, execLdVxMem, Memory.readBlock_error s.mem (n := x.val + 1) (show x.val + 1 ≠ 0 ∧ 4096 < dataAddress s + (x.val + 1) by omega)]

/-- The canvas DXYN ends with. -/
abbrev drawn (s : State) (x y : Reg) (n : Fin 16) : Canvas :=
  drawSprite s.screen (spriteColumn s x) (spriteRow s y) (bytesAtI s n.val)

/-- DXYN inside memory (spec R191). -/
theorem exec_drw_ok (s : State) (x y : Reg) (n : Fin 16) (h : n.val = 0 ∨ dataAddress s + n.val ≤ 4096) :
    exec (.drw x y n) s =
      .next ((s.setScreen (drawn s x y n).screen).setV regF (flagByte (drawn s x y n).collision)) := by
  simp only [exec, execDrw, Memory.readBlock_ok s.mem h]

/-- DXYN past the end of memory (spec R191). -/
theorem exec_drw_fault (s : State) (x y : Reg) (n : Fin 16) (h : n.val ≠ 0 ∧ 4096 < dataAddress s + n.val) :
    exec (.drw x y n) s = raise (.drw x y n) (.memOutOfRange (max (dataAddress s) 4096)) s := by
  simp only [exec, execDrw, Memory.readBlock_error s.mem h]

/-- DXYN flips the cells under the sprite and no other (spec R191). -/
theorem drawn_pixel (s : State) (x y : Reg) (n : Fin 16) (px : Fin 64) (py : Fin 32) :
    Screen.pixel (drawn s x y n).screen px py = true ↔
      (Screen.pixel s.screen px py = true ↔
        ¬ underSprite s ((s.getV x).toNat % 64) ((s.getV y).toNat % 32) n.val px py) := by
  rw [drawSprite_pixel _ _ _ _ (by simp only [List.length_map, List.length_range]; omega)]
  rw [show bytesAtI s n.val = (List.range n.val).map (fun k => s.mem.byteAt (s.i.toNat + k)) from rfl, spriteHit_readBlock]
  exact Iff.rfl

/-- DXYN collides iff a cell under the sprite was set (spec R192). -/
theorem drawn_collision (s : State) (x y : Reg) (n : Fin 16) :
    (drawn s x y n).collision = true ↔ ∃ (px : Fin 64) (py : Fin 32),
      underSprite s ((s.getV x).toNat % 64) ((s.getV y).toNat % 32) n.val px py ∧ Screen.pixel s.screen px py = true := by
  rw [drawSprite_collision _ _ _ _ (by simp only [List.length_map, List.length_range]; omega)]
  rw [show bytesAtI s n.val = (List.range n.val).map (fun k => s.mem.byteAt (s.i.toNat + k)) from rfl]
  simp only [spriteHit_readBlock]
  exact Iff.rfl

/-- EX9E with a key index (spec R210). -/
theorem exec_skp_ok (s : State) (x : Reg) (h : (s.getV x).toNat < 16) :
    exec (.skp x) s = .next (s.skipIf (s.keys[(s.getV x).toNat])) := by
  simp only [exec, execSkp, keyIndex_ok s x h, Fin.getElem_fin]

/-- EX9E without one (spec R210). -/
theorem exec_skp_fault (s : State) (x : Reg) (h : 15 < (s.getV x).toNat) :
    exec (.skp x) s = raise (.skp x) (.keyIndexOutOfRange (s.getV x)) s := by
  simp only [exec, execSkp, keyIndex_none s x h]

/-- EXA1 with a key index (spec R211). -/
theorem exec_sknp_ok (s : State) (x : Reg) (h : (s.getV x).toNat < 16) :
    exec (.sknp x) s = .next (s.skipIf (!s.keys[(s.getV x).toNat])) := by
  simp only [exec, execSknp, keyIndex_ok s x h, Fin.getElem_fin]

/-- EXA1 without one (spec R211). -/
theorem exec_sknp_fault (s : State) (x : Reg) (h : 15 < (s.getV x).toNat) :
    exec (.sknp x) s = raise (.sknp x) (.keyIndexOutOfRange (s.getV x)) s := by
  simp only [exec, execSknp, keyIndex_none s x h]

/-- FX0A with a key pressed (spec R213). -/
theorem exec_ldVxK_pressed (s : State) (x : Reg) (j : Key) (h : lowestPressed s.keys = some j) :
    exec (.ldVxK x) s = .next (s.setV x (BitVec.ofNat 8 j.val)) := by
  simp only [exec, execLdVxK, h]

/-- FX0A with no key pressed (spec R213). -/
theorem exec_ldVxK_none (s : State) (x : Reg) (h : lowestPressed s.keys = none) : exec (.ldVxK x) s = .next s.rewind := by
  simp only [exec, execLdVxK, h]

/-! ### What a completing instruction can do -/

/-- The state an instruction leaves where it completes; where it faults this function says nothing (it answers `s`). -/
def effect : Instr → State → State
  | .nop, s => s
  | .cls, s => s.setScreen blankScreen
  | .ret, s => match s.pop with
    | none => s
    | some (target, t) => t.setPc target
  | .jp nnn, s => s.setPc (zext16 nnn)
  | .call nnn, s => match s.push s.pc with
    | none => s
    | some t => t.setPc (zext16 nnn)
  | .seVxNn x nn, s => s.skipIf (s.getV x == nn)
  | .sneVxNn x nn, s => s.skipIf (s.getV x != nn)
  | .seVxVy x y, s => s.skipIf (s.getV x == s.getV y)
  | .ldVxNn x nn, s => s.setV x nn
  | .addVxNn x nn, s => s.setV x (sumByte (s.getV x) nn)
  | .ldVxVy x y, s => s.setV x (s.getV y)
  | .orVxVy x y, s => s.setV x (s.getV x ||| s.getV y)
  | .andVxVy x y, s => s.setV x (s.getV x &&& s.getV y)
  | .xorVxVy x y, s => s.setV x (s.getV x ^^^ s.getV y)
  | .addVxVy x y, s => s.setVFlag x (sumByte (s.getV x) (s.getV y)) (carryFlag (s.getV x) (s.getV y))
  | .sub x y, s => s.setVFlag x (differenceByte (s.getV x) (s.getV y)) (noBorrowFlag (s.getV x) (s.getV y))
  | .shr x _, s => s.setVFlag x (shiftRightOne (s.getV x)) (shiftedOutRight (s.getV x))
  | .subn x y, s => s.setVFlag x (differenceByte (s.getV y) (s.getV x)) (noBorrowFlag (s.getV y) (s.getV x))
  | .shl x _, s => s.setVFlag x (shiftLeftOne (s.getV x)) (shiftedOutLeft (s.getV x))
  | .sneVxVy x y, s => s.skipIf (s.getV x != s.getV y)
  | .ldINnn nnn, s => s.setI (zext16 nnn)
  | .jpV0 nnn, s => s.setPc (indexedTarget s nnn)
  | .rnd x nn, s => s.draw.2.setV x (s.draw.1 &&& nn)
  | .drw x y n, s => (s.setScreen (drawn s x y n).screen).setV regF (flagByte (drawn s x y n).collision)
  | .skp x, s => match keyIndex s x with
    | none => s
    | some k => s.skipIf (s.keys[k])
  | .sknp x, s => match keyIndex s x with
    | none => s
    | some k => s.skipIf (!s.keys[k])
  | .ldVxDt x, s => s.setV x s.dt
  | .ldVxK x, s => match lowestPressed s.keys with
    | none => s.rewind
    | some j => s.setV x (BitVec.ofNat 8 j.val)
  | .ldDtVx x, s => s.setDt (s.getV x)
  | .ldStVx x, s => s.setSt (s.getV x)
  | .addIVx x, s => s.setI (indexSum s x)
  | .ldFVx x, s => s.setI (glyphAddress s x)
  | .ldBVx x, s => s.setMem (s.mem.writeFrom (dataAddress s) (bcdDigits (s.getV x)))
  | .ldMemVx x, s => s.setMem (s.mem.writeFrom (dataAddress s) (s.regsUpTo x))
  | .ldVxMem x, s => s.setRegs (setRegsFrom s.v 0 (bytesAtI s (x.val + 1)))

/-- If an instruction completes, it leaves its effect. -/
theorem exec_next {i : Instr} {s t : State} (h : exec i s = .next t) : t = effect i s := by
  cases i
  case ret =>
    simp only [exec, execRet, effect] at h ⊢
    split at h <;> simp_all
  case call nnn =>
    simp only [exec, execCall, effect] at h ⊢
    split at h <;> simp_all
  case skp x =>
    simp only [exec, execSkp, effect] at h ⊢
    split at h <;> simp_all
  case sknp x =>
    simp only [exec, execSknp, effect] at h ⊢
    split at h <;> simp_all
  case ldVxK x =>
    simp only [exec, execLdVxK, effect] at h ⊢
    split at h <;> simp_all
  case ldBVx x =>
    simp only [exec, execLdBVx, Memory.writeBlock, effect] at h ⊢
    split at h <;> rename_i he <;> split at he <;> simp_all
  case ldMemVx x =>
    simp only [exec, execLdMemVx, Memory.writeBlock, effect] at h ⊢
    split at h <;> rename_i he <;> split at he <;> simp_all
  case ldVxMem x =>
    simp only [exec, execLdVxMem, Memory.readBlock, effect] at h ⊢
    split at h <;> rename_i he <;> split at he <;> simp_all
  case drw x y n =>
    simp only [exec, execDrw, Memory.readBlock, effect, drawn, bytesAtI] at h ⊢
    split at h <;> rename_i he <;> split at he <;> simp_all
  all_goals exact (Host.Outcome.next.inj h).symm

/-- If a STEP completes, no fault was latched, and the effect is that of the decoded instruction after the PC advance. -/
theorem step_next {s t : State} (h : step s = .next t) :
    s.fault = none ∧ ∃ (w : Word) (i : Instr), fetchWord s = some w ∧ decodeWord w = some i ∧
      exec i s.advance = .next t ∧ t = effect i s.advance := by
  simp only [step, stepOnce] at h
  split at h
  · cases h
  · rename_i hf
    refine ⟨hf, ?_⟩
    simp only [fetchDecodeExecute] at h
    split at h
    · cases h
    · rename_i w hw
      simp only [decodeExecute] at h
      split at h
      · rename_i i hi
        exact ⟨w, i, hw, hi, h, exec_next h⟩
      · cases h

/-- If a STEP faults, it is a fetch, a decode or an execute fault. -/
theorem step_fault {s : State} {f : Fault} (h : step s = .fault f) :
    s.fault = none ∧
      ((fetchWord s = none ∧ raiseFetch s = .fault f) ∨
        ∃ w : Word, fetchWord s = some w ∧
          ((decodeWord w = none ∧ raiseUnimplemented w s.advance = .fault f) ∨
            ∃ i : Instr, decodeWord w = some i ∧ exec i s.advance = .fault f)) := by
  simp only [step, stepOnce] at h
  split at h
  · cases h
  · rename_i hf
    refine ⟨hf, ?_⟩
    simp only [fetchDecodeExecute] at h
    split at h
    · rename_i hw
      exact .inl ⟨hw, h⟩
    · rename_i w hw
      refine .inr ⟨w, hw, ?_⟩
      simp only [decodeExecute] at h
      split at h
      · rename_i i hi
        exact .inr ⟨i, hi, h⟩
      · rename_i hi
        exact .inl ⟨hi, h⟩

/-! ### Fetch -/

/-- Fetch inside memory (spec R71). -/
theorem fetchWord_ok (s : State) (h : s.pc.toNat + 1 < 4096) :
    fetchWord s = some (wordOfBytes (s.mem.byteAt s.pc.toNat) (s.mem.byteAt (s.pc.toNat + 1))) := by
  simp only [fetchWord, Memory.read, if_pos h, if_pos (show s.pc.toNat < 4096 by omega)]

/-- Fetch past the end of memory (spec R71). -/
theorem fetchWord_none (s : State) (h : 4096 ≤ s.pc.toNat + 1) : fetchWord s = none := by
  simp only [fetchWord, Memory.read, if_neg (show ¬ s.pc.toNat + 1 < 4096 by omega)]
  split <;> simp_all

end Sys2Proof.Machine
end

