-- ==== Sys2Proof/Laws/PerInstr.lean ====
section
/-! SUPPORT. Per instruction: its encoded word lies in its own row of the opcode table (spec R74, R83). -/

namespace Sys2Proof.Laws.EncodesItsRow

/-- The word of the instruction matches the row of the opcode table that carries its mnemonic. -/
def Statement (i : Instr) : Prop :=
  ∃ r ∈ opcodeTable, r.mnemonic = i.mnemonic ∧ r.covers (encode i) = true

theorem nop : Statement (.nop) := by
  refine ⟨⟨"NOP", 0xFFFF, 0x0000⟩, by decide, rfl, ?_⟩
  decide

theorem cls : Statement (.cls) := by
  refine ⟨⟨"CLS", 0xFFFF, 0x00E0⟩, by decide, rfl, ?_⟩
  decide

theorem ret : Statement (.ret) := by
  refine ⟨⟨"RET", 0xFFFF, 0x00EE⟩, by decide, rfl, ?_⟩
  decide

theorem jp (nnn : Addr) : Statement (.jp nnn) := by
  refine ⟨⟨"JP", 0xF000, 0x1000⟩, by decide, rfl, ?_⟩
  rw [covers_F000]
  have := nnn.isLt
  simp only [encode, BitVec.toNat_ofNat, BitVec.reduceToNat]
  omega

theorem call (nnn : Addr) : Statement (.call nnn) := by
  refine ⟨⟨"CALL", 0xF000, 0x2000⟩, by decide, rfl, ?_⟩
  rw [covers_F000]
  have := nnn.isLt
  simp only [encode, BitVec.toNat_ofNat, BitVec.reduceToNat]
  omega

theorem seVxNn (x : Reg) (nn : Byte) : Statement (.seVxNn x nn) := by
  refine ⟨⟨"SE_VX_NN", 0xF000, 0x3000⟩, by decide, rfl, ?_⟩
  rw [covers_F000]
  have := nn.isLt
  simp only [encode, BitVec.toNat_ofNat, BitVec.reduceToNat]
  omega

theorem sneVxNn (x : Reg) (nn : Byte) : Statement (.sneVxNn x nn) := by
  refine ⟨⟨"SNE_VX_NN", 0xF000, 0x4000⟩, by decide, rfl, ?_⟩
  rw [covers_F000]
  have := nn.isLt
  simp only [encode, BitVec.toNat_ofNat, BitVec.reduceToNat]
  omega

theorem seVxVy (x y : Reg) : Statement (.seVxVy x y) := by
  refine ⟨⟨"SE_VX_VY", 0xF00F, 0x5000⟩, by decide, rfl, ?_⟩
  rw [covers_F00F]
  simp only [encode, BitVec.toNat_ofNat, BitVec.reduceToNat]
  omega

theorem ldVxNn (x : Reg) (nn : Byte) : Statement (.ldVxNn x nn) := by
  refine ⟨⟨"LD_VX_NN", 0xF000, 0x6000⟩, by decide, rfl, ?_⟩
  rw [covers_F000]
  have := nn.isLt
  simp only [encode, BitVec.toNat_ofNat, BitVec.reduceToNat]
  omega

theorem addVxNn (x : Reg) (nn : Byte) : Statement (.addVxNn x nn) := by
  refine ⟨⟨"ADD_VX_NN", 0xF000, 0x7000⟩, by decide, rfl, ?_⟩
  rw [covers_F000]
  have := nn.isLt
  simp only [encode, BitVec.toNat_ofNat, BitVec.reduceToNat]
  omega

theorem ldVxVy (x y : Reg) : Statement (.ldVxVy x y) := by
  refine ⟨⟨"LD_VX_VY", 0xF00F, 0x8000⟩, by decide, rfl, ?_⟩
  rw [covers_F00F]
  simp only [encode, BitVec.toNat_ofNat, BitVec.reduceToNat]
  omega

theorem orVxVy (x y : Reg) : Statement (.orVxVy x y) := by
  refine ⟨⟨"OR", 0xF00F, 0x8001⟩, by decide, rfl, ?_⟩
  rw [covers_F00F]
  simp only [encode, BitVec.toNat_ofNat, BitVec.reduceToNat]
  omega

theorem andVxVy (x y : Reg) : Statement (.andVxVy x y) := by
  refine ⟨⟨"AND", 0xF00F, 0x8002⟩, by decide, rfl, ?_⟩
  rw [covers_F00F]
  simp only [encode, BitVec.toNat_ofNat, BitVec.reduceToNat]
  omega

theorem xorVxVy (x y : Reg) : Statement (.xorVxVy x y) := by
  refine ⟨⟨"XOR", 0xF00F, 0x8003⟩, by decide, rfl, ?_⟩
  rw [covers_F00F]
  simp only [encode, BitVec.toNat_ofNat, BitVec.reduceToNat]
  omega

theorem addVxVy (x y : Reg) : Statement (.addVxVy x y) := by
  refine ⟨⟨"ADD_VX_VY", 0xF00F, 0x8004⟩, by decide, rfl, ?_⟩
  rw [covers_F00F]
  simp only [encode, BitVec.toNat_ofNat, BitVec.reduceToNat]
  omega

theorem sub (x y : Reg) : Statement (.sub x y) := by
  refine ⟨⟨"SUB", 0xF00F, 0x8005⟩, by decide, rfl, ?_⟩
  rw [covers_F00F]
  simp only [encode, BitVec.toNat_ofNat, BitVec.reduceToNat]
  omega

theorem shr (x y : Reg) : Statement (.shr x y) := by
  refine ⟨⟨"SHR", 0xF00F, 0x8006⟩, by decide, rfl, ?_⟩
  rw [covers_F00F]
  simp only [encode, BitVec.toNat_ofNat, BitVec.reduceToNat]
  omega

theorem subn (x y : Reg) : Statement (.subn x y) := by
  refine ⟨⟨"SUBN", 0xF00F, 0x8007⟩, by decide, rfl, ?_⟩
  rw [covers_F00F]
  simp only [encode, BitVec.toNat_ofNat, BitVec.reduceToNat]
  omega

theorem shl (x y : Reg) : Statement (.shl x y) := by
  refine ⟨⟨"SHL", 0xF00F, 0x800E⟩, by decide, rfl, ?_⟩
  rw [covers_F00F]
  simp only [encode, BitVec.toNat_ofNat, BitVec.reduceToNat]
  omega

theorem sneVxVy (x y : Reg) : Statement (.sneVxVy x y) := by
  refine ⟨⟨"SNE_VX_VY", 0xF00F, 0x9000⟩, by decide, rfl, ?_⟩
  rw [covers_F00F]
  simp only [encode, BitVec.toNat_ofNat, BitVec.reduceToNat]
  omega

theorem ldINnn (nnn : Addr) : Statement (.ldINnn nnn) := by
  refine ⟨⟨"LD_I_NNN", 0xF000, 0xA000⟩, by decide, rfl, ?_⟩
  rw [covers_F000]
  have := nnn.isLt
  simp only [encode, BitVec.toNat_ofNat, BitVec.reduceToNat]
  omega

theorem jpV0 (nnn : Addr) : Statement (.jpV0 nnn) := by
  refine ⟨⟨"JP_V0", 0xF000, 0xB000⟩, by decide, rfl, ?_⟩
  rw [covers_F000]
  have := nnn.isLt
  simp only [encode, BitVec.toNat_ofNat, BitVec.reduceToNat]
  omega

theorem rnd (x : Reg) (nn : Byte) : Statement (.rnd x nn) := by
  refine ⟨⟨"RND", 0xF000, 0xC000⟩, by decide, rfl, ?_⟩
  rw [covers_F000]
  have := nn.isLt
  simp only [encode, BitVec.toNat_ofNat, BitVec.reduceToNat]
  omega

theorem drw (x y : Reg) (n : Fin 16) : Statement (.drw x y n) := by
  refine ⟨⟨"DRW", 0xF000, 0xD000⟩, by decide, rfl, ?_⟩
  rw [covers_F000]
  simp only [encode, BitVec.toNat_ofNat, BitVec.reduceToNat]
  omega

theorem skp (x : Reg) : Statement (.skp x) := by
  refine ⟨⟨"SKP", 0xF0FF, 0xE09E⟩, by decide, rfl, ?_⟩
  rw [covers_F0FF]
  simp only [encode, BitVec.toNat_ofNat, BitVec.reduceToNat]
  omega

theorem sknp (x : Reg) : Statement (.sknp x) := by
  refine ⟨⟨"SKNP", 0xF0FF, 0xE0A1⟩, by decide, rfl, ?_⟩
  rw [covers_F0FF]
  simp only [encode, BitVec.toNat_ofNat, BitVec.reduceToNat]
  omega

theorem ldVxDt (x : Reg) : Statement (.ldVxDt x) := by
  refine ⟨⟨"LD_VX_DT", 0xF0FF, 0xF007⟩, by decide, rfl, ?_⟩
  rw [covers_F0FF]
  simp only [encode, BitVec.toNat_ofNat, BitVec.reduceToNat]
  omega

theorem ldVxK (x : Reg) : Statement (.ldVxK x) := by
  refine ⟨⟨"LD_VX_K", 0xF0FF, 0xF00A⟩, by decide, rfl, ?_⟩
  rw [covers_F0FF]
  simp only [encode, BitVec.toNat_ofNat, BitVec.reduceToNat]
  omega

theorem ldDtVx (x : Reg) : Statement (.ldDtVx x) := by
  refine ⟨⟨"LD_DT_VX", 0xF0FF, 0xF015⟩, by decide, rfl, ?_⟩
  rw [covers_F0FF]
  simp only [encode, BitVec.toNat_ofNat, BitVec.reduceToNat]
  omega

theorem ldStVx (x : Reg) : Statement (.ldStVx x) := by
  refine ⟨⟨"LD_ST_VX", 0xF0FF, 0xF018⟩, by decide, rfl, ?_⟩
  rw [covers_F0FF]
  simp only [encode, BitVec.toNat_ofNat, BitVec.reduceToNat]
  omega

theorem addIVx (x : Reg) : Statement (.addIVx x) := by
  refine ⟨⟨"ADD_I_VX", 0xF0FF, 0xF01E⟩, by decide, rfl, ?_⟩
  rw [covers_F0FF]
  simp only [encode, BitVec.toNat_ofNat, BitVec.reduceToNat]
  omega

theorem ldFVx (x : Reg) : Statement (.ldFVx x) := by
  refine ⟨⟨"LD_F_VX", 0xF0FF, 0xF029⟩, by decide, rfl, ?_⟩
  rw [covers_F0FF]
  simp only [encode, BitVec.toNat_ofNat, BitVec.reduceToNat]
  omega

theorem ldBVx (x : Reg) : Statement (.ldBVx x) := by
  refine ⟨⟨"LD_B_VX", 0xF0FF, 0xF033⟩, by decide, rfl, ?_⟩
  rw [covers_F0FF]
  simp only [encode, BitVec.toNat_ofNat, BitVec.reduceToNat]
  omega

theorem ldMemVx (x : Reg) : Statement (.ldMemVx x) := by
  refine ⟨⟨"LD_MEM_VX", 0xF0FF, 0xF055⟩, by decide, rfl, ?_⟩
  rw [covers_F0FF]
  simp only [encode, BitVec.toNat_ofNat, BitVec.reduceToNat]
  omega

theorem ldVxMem (x : Reg) : Statement (.ldVxMem x) := by
  refine ⟨⟨"LD_VX_MEM", 0xF0FF, 0xF065⟩, by decide, rfl, ?_⟩
  rw [covers_F0FF]
  simp only [encode, BitVec.toNat_ofNat, BitVec.reduceToNat]
  omega

end Sys2Proof.Laws.EncodesItsRow
end

