-- ==== Sys2Proof/Tests/Slice0.lean ====
section
/-! SUPPORT. Tests on fixed values, each about one operation on a small state, with expected values from the encodings and vectors of the spec (the id of a vector of 95_test_vectors.md stands in each docstring), and a witness for the hypotheses of every statement that has any. -/

namespace Sys2Proof.Machine.Slice0

/-- The state after RESET with these V registers set. -/
def withRegs (rs : List (Reg × Byte)) : State := rs.foldl (fun s r => s.setV r.1 r.2) State.reset

/-- STEP of `s` with the word `w` placed at PC. -/
def run (s : State) (w : Nat) : Result := step (s.withFetchWord 16 w)

/-- The result is a next state in which `p` holds. -/
def goesOn (r : Result) (p : State → Bool) : Bool :=
  match r with
  | .next t => p t
  | _ => false

/-- The result is a fault with this record whose halted state has PC `pc`, the record latched, and `p`. -/
def stops (r : Result) (cause : FaultCause) (addr : Word) (word : Option Word) (pc : Word) (p : State → Bool) : Bool :=
  match r with
  | .fault (.fatal record t) => record == ⟨cause, addr, word⟩ && t.fault == some record && t.pc == pc && p t
  | _ => false

/-- A record to latch. -/
def someRecord : FaultRecord := ⟨.stackUnderflow, 0x200, some 0x00EE⟩


/-! ### Decoding words written out from the encodings of 30_encoding.md R74-R76 -/

/-- Family 0: the whole word. -/
theorem test_decode_system :
    decodeTableWord 16 0x0000 = some .nop ∧
    decodeTableWord 16 0x00E0 = some .cls ∧
    decodeTableWord 16 0x00EE = some .ret := by decide

/-- Families 1, 2, A, B: NNN is bits 11:0. -/
theorem test_decode_nnn :
    decodeTableWord 16 0x1ABC = some (.jp 0xABC) ∧
    decodeTableWord 16 0x2DEF = some (.call 0xDEF) ∧
    decodeTableWord 16 0xA123 = some (.ldINnn 0x123) ∧
    decodeTableWord 16 0xBFED = some (.jpV0 0xFED) := by decide

/-- Families 3, 4, 6, 7, C: X is bits 11:8 and NN bits 7:0. -/
theorem test_decode_x_nn :
    decodeTableWord 16 0x3A5C = some (.seVxNn 10 0x5C) ∧
    decodeTableWord 16 0x4B6D = some (.sneVxNn 11 0x6D) ∧
    decodeTableWord 16 0x6C7E = some (.ldVxNn 12 0x7E) ∧
    decodeTableWord 16 0x7D8F = some (.addVxNn 13 0x8F) ∧
    decodeTableWord 16 0xCE90 = some (.rnd 14 0x90) := by decide

/-- Families 5, 9, D: X is bits 11:8, Y bits 7:4, N bits 3:0. -/
theorem test_decode_x_y :
    decodeTableWord 16 0x5120 = some (.seVxVy 1 2) ∧
    decodeTableWord 16 0x9340 = some (.sneVxVy 3 4) ∧
    decodeTableWord 16 0xDF15 = some (.drw 15 1 5) := by decide

/-- Family 8: N selects. -/
theorem test_decode_alu :
    decodeTableWord 16 0x8120 = some (.ldVxVy 1 2) ∧
    decodeTableWord 16 0x8231 = some (.orVxVy 2 3) ∧
    decodeTableWord 16 0x8342 = some (.andVxVy 3 4) ∧
    decodeTableWord 16 0x8453 = some (.xorVxVy 4 5) ∧
    decodeTableWord 16 0x8564 = some (.addVxVy 5 6) ∧
    decodeTableWord 16 0x8675 = some (.sub 6 7) ∧
    decodeTableWord 16 0x8786 = some (.shr 7 8) ∧
    decodeTableWord 16 0x8897 = some (.subn 8 9) ∧
    decodeTableWord 16 0x89AE = some (.shl 9 10) := by decide

/-- Family E: NN selects. -/
theorem test_decode_keys :
    decodeTableWord 16 0xE59E = some (.skp 5) ∧
    decodeTableWord 16 0xEFA1 = some (.sknp 15) := by decide

/-- Family F: NN selects. -/
theorem test_decode_misc :
    decodeTableWord 16 0xF107 = some (.ldVxDt 1) ∧
    decodeTableWord 16 0xF20A = some (.ldVxK 2) ∧
    decodeTableWord 16 0xF315 = some (.ldDtVx 3) ∧
    decodeTableWord 16 0xF418 = some (.ldStVx 4) ∧
    decodeTableWord 16 0xF51E = some (.addIVx 5) ∧
    decodeTableWord 16 0xF629 = some (.ldFVx 6) ∧
    decodeTableWord 16 0xF733 = some (.ldBVx 7) ∧
    decodeTableWord 16 0xF855 = some (.ldMemVx 8) ∧
    decodeTableWord 16 0xF965 = some (.ldVxMem 9) := by decide


/-! ### Ill-formed words (WellFormed.lean), one check for each class of 30_encoding.md R78; vectors E6-E13 -/

/-- The opcode table does not cover the word, and the decoder refuses it. -/
def refused (w : Word) : Bool := !wordWellFormed w && (decodeWord w).isNone

/-- E6, E7, E8. -/
theorem test_illformed_system :
    refused 0x0001 = true ∧ refused 0x00E1 = true ∧ refused 0x00FF = true ∧ refused 0x00EF = true ∧
    refused 0x0FFF = true := by
  decide

/-- E9, E10. -/
theorem test_illformed_compare : refused 0x5121 = true ∧ refused 0x912F = true := by decide

/-- E11. -/
theorem test_illformed_alu :
    refused 0x8008 = true ∧ refused 0x8009 = true ∧ refused 0x800A = true ∧ refused 0x800B = true ∧
    refused 0x800C = true ∧ refused 0x800D = true ∧ refused 0x800F = true := by
  decide

/-- E12. -/
theorem test_illformed_key :
    refused 0xE000 = true ∧ refused 0xE09F = true ∧ refused 0xE0A0 = true ∧ refused 0xE0FF = true := by decide

/-- E13. -/
theorem test_illformed_misc :
    refused 0xF000 = true ∧ refused 0xF008 = true ∧ refused 0xF01F = true ∧ refused 0xF030 = true ∧
    refused 0xF056 = true ∧ refused 0xF066 = true ∧ refused 0xF0FF = true := by
  decide

/-- Every row's own pattern, operands zero, is well formed and decodes to the row's instruction. -/
theorem test_wellformed_row_words :
    ∀ r ∈ opcodeTable, wordWellFormed r.pattern = true ∧
    (decodeWord r.pattern).map Instr.mnemonic = some r.mnemonic := by
  decide

/-- R71, R73. -/
theorem test_decode_truncated :
    decode [0x12] = .error .truncated ∧ decode [0x12, 0x34, 0x56] = .ok (.jp 0x234, [0x56]) := by exact ⟨rfl, rfl⟩


/-! ### The instruction cycle (30_encoding.md R70-R72) -/

/-- E2. -/
theorem test_fetch_odd_pc :
    goesOn (run (State.reset.setPc 0x201) 0x6042) (fun t => t.getV 0 == 0x42 && t.pc == 0x203) = true := by decide

/-- E3. -/
theorem test_fetch_last_word :
    goesOn (run (State.reset.setPc 0xFFE) 0x0000) (fun t => t.pc == 0x1000) = true := by decide

/-- E5. -/
theorem test_fetch_past_end :
    stops (step (State.reset.setPc 0xFFF)) (.fetchOutOfRange 0xFFF) 0xFFF none 0xFFF (fun _ => true) = true := by decide

/-- C11, the STEP after it. -/
theorem test_fetch_past_end_again :
    stops (step (State.reset.setPc 0x10FE)) (.fetchOutOfRange 0x10FE) 0x10FE none 0x10FE (fun _ => true) = true := by
  decide

/-- P7. -/
theorem test_step_unimplemented :
    stops (run (withRegs [(10, 7)]) 0x0123) (.unimplementedOpcode 0x0123) 0x200 (some 0x0123) 0x202
      (fun t => t.getV 10 == 7) = true := by
  decide

/-- H3. -/
theorem test_step_after_reset : step State.reset = .next (State.reset.setPc 0x202) := rfl

/-- H5. -/
theorem test_step_halted : step (State.reset.latch someRecord) = .refused (.coreHalted someRecord) := rfl


/-! ### Control (41_control.md) -/

/-- E1. -/
theorem test_nop : goesOn (run State.reset 0x0000) (fun t => t == State.reset.setPc 0x202) = true := by decide

/-- C1. -/
theorem test_call :
    goesOn (run State.reset 0x2300) (fun t => t.pc == 0x300 && t.sp == 1 && t.stack[0] == 0x202) = true := by decide

/-- C5. -/
theorem test_call_full :
    stops (run ({ State.reset with sp := 16 }) 0x2400) .stackOverflow 0x200 (some 0x2400) 0x202
      (fun t => t.sp == 16) = true := by
  decide

/-- C2. -/
theorem test_ret :
    goesOn (run ({ State.reset with sp := 1, pc := 0x300, stack := State.reset.stack.set 0 0x202 }) 0x00EE)
      (fun t => t.pc == 0x202 && t.sp == 0 && t.stack[0] == 0x202) = true := by
  decide

/-- C3. -/
theorem test_ret_empty :
    stops (run State.reset 0x00EE) .stackUnderflow 0x200 (some 0x00EE) 0x202 (fun t => t.sp == 0) = true := by decide

/-- C6. -/
theorem test_jp : goesOn (run State.reset 0x1ABC) (fun t => t.pc == 0xABC) = true := by decide

/-- C11. -/
theorem test_jpV0 : goesOn (run (withRegs [(0, 0xFF)]) 0xBFFF) (fun t => t.pc == 0x10FE) = true := by decide

/-- C13. -/
theorem test_seVxNn : goesOn (run (withRegs [(3, 0x42)]) 0x3342) (fun t => t.pc == 0x204) = true := by decide

/-- C14. -/
theorem test_seVxNn_not : goesOn (run (withRegs [(3, 0x41)]) 0x3342) (fun t => t.pc == 0x202) = true := by decide

/-- C15. -/
theorem test_sneVxNn : goesOn (run (withRegs [(3, 0x41)]) 0x4342) (fun t => t.pc == 0x204) = true := by decide

/-- C16. -/
theorem test_sneVxNn_not : goesOn (run (withRegs [(3, 0x42)]) 0x4342) (fun t => t.pc == 0x202) = true := by decide

/-- C17. -/
theorem test_seVxVy : goesOn (run (withRegs [(1, 7), (2, 7)]) 0x5120) (fun t => t.pc == 0x204) = true := by decide

/-- C18. -/
theorem test_seVxVy_not : goesOn (run (withRegs [(1, 7), (2, 8)]) 0x5120) (fun t => t.pc == 0x202) = true := by decide

/-- C19. -/
theorem test_sneVxVy : goesOn (run (withRegs [(1, 7), (2, 8)]) 0x9120) (fun t => t.pc == 0x204) = true := by decide

/-- C20. -/
theorem test_sneVxVy_not : goesOn (run (withRegs [(1, 7), (2, 7)]) 0x9120) (fun t => t.pc == 0x202) = true := by decide


/-! ### The ALU (42_alu.md) -/

/-- A2. -/
theorem test_ldVxNn : goesOn (run (withRegs [(15, 1)]) 0x6F00) (fun t => t.getV 15 == 0) = true := by decide

/-- A3. -/
theorem test_addVxNn :
    goesOn (run (withRegs [(2, 0xFE), (15, 7)]) 0x7203) (fun t => t.getV 2 == 1 && t.getV 15 == 7) = true := by decide

/-- A6. -/
theorem test_ldVxVy :
    goesOn (run (withRegs [(1, 0x33)]) 0x8010) (fun t => t.getV 0 == 0x33 && t.getV 1 == 0x33) = true := by decide

/-- A7. -/
theorem test_or :
    goesOn (run (withRegs [(0, 0x0F), (1, 0xF0), (15, 5)]) 0x8011)
      (fun t => t.getV 0 == 0xFF && t.getV 15 == 5) = true := by
  decide

/-- A8. -/
theorem test_and :
    goesOn (run (withRegs [(0, 0x3C), (1, 0x0F), (15, 5)]) 0x8012)
      (fun t => t.getV 0 == 0x0C && t.getV 15 == 5) = true := by
  decide

/-- A9. -/
theorem test_xor :
    goesOn (run (withRegs [(0, 0x3C), (1, 0x0F), (15, 5)]) 0x8013)
      (fun t => t.getV 0 == 0x33 && t.getV 15 == 5) = true := by
  decide

/-- A11. -/
theorem test_addVxVy :
    goesOn (run (withRegs [(0, 0xFF), (1, 0x01)]) 0x8014) (fun t => t.getV 0 == 0 && t.getV 15 == 1) = true := by decide

/-- A16. -/
theorem test_addVxVy_y_is_f :
    goesOn (run (withRegs [(0, 0x10), (15, 0xF0)]) 0x80F4) (fun t => t.getV 0 == 0 && t.getV 15 == 1) = true := by
  decide

/-- A18. -/
theorem test_sub :
    goesOn (run (withRegs [(0, 0), (1, 1)]) 0x8015) (fun t => t.getV 0 == 0xFF && t.getV 15 == 0) = true := by decide

/-- A14. -/
theorem test_sub_x_is_f : goesOn (run (withRegs [(15, 5), (1, 3)]) 0x8F15) (fun t => t.getV 15 == 1) = true := by decide

/-- A24. -/
theorem test_shr :
    goesOn (run (withRegs [(4, 4), (5, 0xFF)]) 0x8456)
      (fun t => t.getV 4 == 2 && t.getV 15 == 0 && t.getV 5 == 0xFF) = true := by
  decide

/-- A20. -/
theorem test_shr_bit :
    goesOn (run (withRegs [(4, 5)]) 0x8406) (fun t => t.getV 4 == 2 && t.getV 15 == 1) = true := by decide

/-- A25. -/
theorem test_subn :
    goesOn (run (withRegs [(0, 7), (1, 5)]) 0x8017) (fun t => t.getV 0 == 0xFE && t.getV 15 == 0) = true := by decide

/-- A26. -/
theorem test_subn_no_borrow :
    goesOn (run (withRegs [(0, 5), (1, 7)]) 0x8017) (fun t => t.getV 0 == 2 && t.getV 15 == 1) = true := by decide

/-- A28. -/
theorem test_shl :
    goesOn (run (withRegs [(4, 0xC1)]) 0x840E) (fun t => t.getV 4 == 0x82 && t.getV 15 == 1) = true := by decide

/-- A23. -/
theorem test_shl_x_is_f : goesOn (run (withRegs [(15, 0x81)]) 0x8F0E) (fun t => t.getV 15 == 1) = true := by decide

/-- A32: for every drawn byte. -/
theorem test_rnd : ∃ t : State, exec (.rnd 3 0x00) (withRegs [(3, 0x55)]) = .next t ∧ t.getV 3 = 0 := ⟨_, rfl, by simp⟩


/-! ### The index register and memory (43_index_memory.md) -/

/-- M2. -/
theorem test_ldINnn : goesOn (run State.reset 0xAFFF) (fun t => t.i == 0xFFF) = true := by decide

/-- M6. -/
theorem test_addIVx :
    goesOn (run ((withRegs [(0, 0xFF)]).setI 0xFFF0) 0xF01E) (fun t => t.i == 0x00EF && t.getV 15 == 0) = true := by
  decide

/-- M25. -/
theorem test_ldFVx : goesOn (run (withRegs [(0, 0xFF)]) 0xF029) (fun t => t.i == 0x4FB) = true := by decide

/-- M7. -/
theorem test_ldBVx :
    goesOn (run ((withRegs [(0, 234)]).setI 0x300) 0xF033)
      (fun t => t.mem.readBlock 0x300 3 matches .ok [2, 3, 4] && t.i == 0x300) = true := by
  decide

/-- M12. -/
theorem test_ldBVx_fault :
    stops (run ((withRegs [(0, 9)]).setI 0xFFE) 0xF033) (.memOutOfRange 0x1000) 0x200 (some 0xF033) 0x202
      (fun t => t.mem.read 0xFFE == some 0 && t.mem.read 0xFFF == some 0) = true := by
  decide

/-- M16. -/
theorem test_ldMemVx :
    goesOn (run ((withRegs [(0, 1), (1, 2), (2, 3)]).setI 0x300) 0xF255)
      (fun t => t.mem.readBlock 0x300 4 matches .ok [1, 2, 3, 0] && t.i == 0x300) = true := by
  decide

/-- M14. -/
theorem test_ldMemVx_fault :
    stops (run ((withRegs [(0, 1), (1, 2)]).setI 0xFFF) 0xF155) (.memOutOfRange 0x1000) 0x200 (some 0xF155) 0x202
      (fun t => t.mem.read 0xFFF == some 0) = true := by
  decide

/-- M18. -/
theorem test_ldVxMem :
    goesOn (run (((withRegs [(3, 0x77)]).setMem (Memory.writeFrom ⟨[]⟩ 0x300 [2, 3, 4])).setI 0x300) 0xF265)
      (fun t => t.getV 0 == 2 && t.getV 1 == 3 && t.getV 2 == 4 && t.getV 3 == 0x77 && t.i == 0x300) = true := by
  decide

/-- M20. -/
theorem test_ldVxMem_fault :
    stops (run (State.reset.setI 0xFF1) 0xFF65) (.memOutOfRange 0x1000) 0x200 (some 0xFF65) 0x202
      (fun t => t.v == State.reset.v) = true := by
  decide


/-! ### The display (44_display.md) -/

/-- A screen with one cell set. -/
def oneCell (x : Fin 64) (y : Fin 32) : Screen := Screen.toggle blankScreen x y

/-- D1. -/
theorem test_cls :
    goesOn (run ((withRegs [(15, 5)]).setScreen (oneCell 63 31)) 0x00E0)
      (fun t => !Screen.pixel t.screen 63 31 && t.getV 15 == 5) = true := by
  decide

/-- D7: the four cells, and two beside them. -/
theorem test_drw_wraps :
    goesOn (run (((withRegs [(0, 62), (1, 31)]).setMem (Memory.writeFrom ⟨[]⟩ 0x20E [0x81, 0xC0])).setI 0x20E) 0xD012)
      (fun t => [(62, 31), (5, 31), (62, 0), (63, 0)].all (fun p => Screen.pixel t.screen p.1 p.2) && !Screen.pixel t.screen 63 31 &&
      !Screen.pixel t.screen 0 0 && t.getV 15 == 0) = true := by
  decide

/-- D3, on the one cell that matters. -/
theorem test_drw_collides :
    goesOn (run (((State.reset.setMem (Memory.write ⟨[]⟩ 0x301 0x01)).setI 0x301).setScreen (oneCell 7 0)) 0xD011)
      (fun t => !Screen.pixel t.screen 7 0 && t.getV 15 == 1) = true := by
  decide

/-- D11. -/
theorem test_drw_fault :
    stops (run ((withRegs [(15, 5)]).setI 0xFFF) 0xD012) (.memOutOfRange 0x1000) 0x200 (some 0xD012) 0x202
      (fun t => t.getV 15 == 5 && !Screen.pixel t.screen 0 0) = true := by
  decide


/-! ### Keys and timers (45_keys_timers.md, 60_exceptions.md R240) -/

/-- The state after RESET with these keys pressed. -/
def pressed (ks : List Key) (s : State) : State := hostSetKeys (ks.map (fun k => (k, true))) s

/-- T1. -/
theorem test_skp : goesOn (run (pressed [10] (withRegs [(5, 10)])) 0xE59E) (fun t => t.pc == 0x204) = true := by decide

/-- T5. -/
theorem test_skp_fault :
    stops (run (withRegs [(5, 0x10)]) 0xE59E) (.keyIndexOutOfRange 0x10) 0x200 (some 0xE59E) 0x202
      (fun _ => true) = true := by
  decide

/-- T3. -/
theorem test_sknp : goesOn (run (withRegs [(5, 10)]) 0xE5A1) (fun t => t.pc == 0x204) = true := by decide

/-- T6. -/
theorem test_sknp_fault :
    stops (run (withRegs [(5, 0xFF)]) 0xE5A1) (.keyIndexOutOfRange 0xFF) 0x200 (some 0xE5A1) 0x202
      (fun _ => true) = true := by
  decide

/-- T8. -/
theorem test_ldVxDt :
    goesOn (run (State.reset.setDt 0x3C) 0xF307) (fun t => t.getV 3 == 0x3C && t.dt == 0x3C) = true := by decide

/-- T9. -/
theorem test_ldVxK_none : goesOn (run State.reset 0xF30A) (fun t => t.pc == 0x200 && t.getV 3 == 0) = true := by decide

/-- T10. -/
theorem test_ldVxK :
    goesOn (run (pressed [15, 3] State.reset) 0xF30A) (fun t => t.pc == 0x202 && t.getV 3 == 3) = true := by decide

/-- T12. -/
theorem test_ldDtVx :
    goesOn (run (withRegs [(0, 0x3C)]) 0xF015) (fun t => t.dt == 0x3C && t.st == 0) = true := by decide

/-- T13. -/
theorem test_ldStVx : goesOn (run (withRegs [(1, 5)]) 0xF118) (fun t => t.st == 5 && t.dt == 0) = true := by decide

/-- T14, T15. -/
theorem test_tick : tick ((State.reset.setDt 5).setSt 1) = .next ((State.reset.setDt 4).setSt 0, true) := rfl

/-- T17. -/
theorem test_tick_clamps : tick State.reset = .next (State.reset, false) := rfl

/-- T19. -/
theorem test_tick_halted : tick (State.reset.latch someRecord) = .refused (.coreHalted someRecord) := rfl

/-- H1. -/
theorem test_reset_of_halted : hostReset ((withRegs [(0, 1)]).latch someRecord) = State.reset := by decide

/-- H2. -/
theorem test_load_rom :
    (loadRom [0x12, 0x00] State.reset).map
      (fun t => (t.mem.read 0x200, t.mem.read 0x201, t.mem.read 0x202)) = some (some 0x12, some 0x00, some 0x00) := by
  decide


/-! ### Witnesses: a state and operands that meet the hypotheses of each statement -/

theorem witness_DecodeThenEncode : decodeWord 0x8F5E = some (.shl 15 5) := by decide

theorem witness_DecoderAcceptsExactlyTheTable : decodeWord 0xF965 = some (.ldVxMem 9) := by decide

theorem witness_PatternsAreDisjoint : ∃ r ∈ opcodeTable, r.covers 0xFFFF = false ∧ r.covers 0xD012 = true := by decide

theorem witness_DecodeReadsTwoBytes : decodeWord 0xFFFF = none := by decide

/-- PC at the last word of memory, `w` placed there. -/
def atEnd (w : Nat) : State := (State.reset.setPc 0xFFE).withFetchWord 16 w

theorem witness_StepRunsTheDecodedInstruction :
    (atEnd 0x60AB).fault = none ∧ (atEnd 0x60AB).mem.read 0xFFE = some 0x60 ∧
    (atEnd 0x60AB).mem.read (0xFFE + 1) = some 0xAB ∧
    decodeWord (BitVec.ofNat 16 ((0x60 : Byte).toNat * 256 + (0xAB : Byte).toNat)) = some (.ldVxNn 0 0xAB) := by
  decide

theorem witness_FetchRule_fault :
    (State.reset.setPc 0xFFF).fault = none ∧ 4096 ≤ (State.reset.setPc 0xFFF).pc.toNat + 1 := by decide

theorem witness_FetchRule_word : (State.reset.setPc 0xFFE).pc.toNat + 1 < 4096 := by decide

theorem witness_UnimplementedWordFaults :
    (atEnd 0x8008).fault = none ∧ fetchWord (atEnd 0x8008) = some 0x8008 ∧ decodeWord 0x8008 = none := by decide

theorem witness_EveryInstructionCompletesOrFaults_completes :
    faultOf (.ldMemVx 15) (State.reset.setI 0xFF0) = none := by decide

theorem witness_EveryInstructionCompletesOrFaults_faults :
    faultOf (.ldMemVx 15) (State.reset.setI 0xFF1) = some (.memOutOfRange 0x1000) := by decide

theorem witness_FaultsArePrecise :
    ∃ r t, step (atEnd 0x00EE) = .fault (.fatal r t) ∧ r.cause.code = 4 := ⟨_, _, rfl, rfl⟩

theorem witness_FaultsArePrecise_fetch :
    ∃ r t, step (State.reset.setPc 0xFFFF) = .fault (.fatal r t) ∧ r.cause.code = 2 := ⟨_, _, rfl, rfl⟩

theorem witness_FaultRecordNamesTheInstruction_decode :
    ∃ r t, step (atEnd 0x0001) = .fault (.fatal r t) ∧ r.cause.code = 1 := ⟨_, _, rfl, rfl⟩

theorem witness_FaultRecordNamesTheInstruction_call :
    ∃ r t, run { State.reset with sp := 16 } 0x2200 = .fault (.fatal r t) ∧ r.cause.code = 3 := ⟨_, _, rfl, rfl⟩

theorem witness_FaultRecordNamesTheInstruction_memory :
    ∃ r t, run (State.reset.setI 0xFFFF) 0xF033 = .fault (.fatal r t) ∧ r.cause.code = 5 ∧ r.cause.info = some 0xFFFF :=
  ⟨_, _, rfl, rfl, rfl⟩

theorem witness_FaultRecordNamesTheInstruction_key :
    ∃ r t, run (withRegs [(5, 16)]) 0xE5A1 = .fault (.fatal r t) ∧ r.cause.code = 6 := ⟨_, _, rfl, rfl⟩

theorem witness_HaltedCoreLeavesOnlyByReset :
    (State.reset.latch someRecord).fault = some someRecord ∧
    (perform (.setKey 3 true) (State.reset.latch someRecord)).isSome = true := by
  decide

theorem witness_CallPushesReturnAddress :
    ({ State.reset with sp := 15 } : State).sp.val < 16 ∧ ({ State.reset with sp := 16 } : State).sp.val = 16 := by
  decide

theorem witness_ReturnPopsAddress :
    ({ State.reset with sp := 16 } : State).sp.val = (15 : Fin 16).val + 1 ∧ ({ State.reset with sp := 1 } :
    State).sp.val = (0 : Fin 16).val + 1 ∧
    State.reset.sp.val = 0 := by
  decide

theorem witness_CallThenReturnComesBack : ({ State.reset with sp := 15 } : State).sp.val < 16 := by decide

theorem witness_RegisterSkips :
    State.reset.getV 3 = 0 ∧ State.reset.getV 3 ≠ 1 ∧ (withRegs [(1, 7)]).getV 1 ≠ (withRegs [(1, 7)]).getV 2 := by
  decide

theorem witness_BcdStore :
    dataAddress (State.reset.setI 0xFFD) + 2 < 4096 ∧ 4096 ≤ dataAddress (State.reset.setI 0xFFE) + 2 := by decide

theorem witness_StoreRegisters :
    dataAddress (State.reset.setI 0xFF0) + (15 : Reg).val < 4096 ∧
    4096 ≤ dataAddress (State.reset.setI 0xFF1) + (15 : Reg).val := by
  decide

theorem witness_LoadRegisters :
    dataAddress (State.reset.setI 0xFFF) + (0 : Reg).val < 4096 ∧
    4096 ≤ dataAddress (State.reset.setI 0x1000) + (0 : Reg).val := by
  decide

theorem witness_DumpLoadRoundTrip : (State.reset.setI 0xFF0).i.toNat + (15 : Reg).val ≤ 0xFFF := by decide

theorem witness_DrawSpriteXorsAndCollides_empty :
    (0 : Fin 16).val = 0 ∨ dataAddress (State.reset.setI 0xFFFF) + (0 : Fin 16).val ≤ 4096 := by decide

theorem witness_DrawSpriteXorsAndCollides_inside :
    dataAddress (State.reset.setI 0xFF1) + (15 : Fin 16).val ≤ 4096 := by decide

theorem witness_DrawSpriteXorsAndCollides_outside :
    (15 : Fin 16).val ≠ 0 ∧ 4096 < dataAddress (State.reset.setI 0xFF2) + (15 : Fin 16).val := by decide

theorem witness_DrawTwiceRestoresScreen :
    (0 : Reg) ≠ 15 ∧ (1 : Reg) ≠ 15 ∧ dataAddress (State.reset.setI 0xFFF) + (1 : Fin 16).val ≤ 4096 ∧
    goesOn (exec (.drw 0 1 1) (State.reset.setI 0xFFF)) (fun t => t.getV 15 == 0) = true := by decide

theorem witness_KeySkips :
    ((withRegs [(5, 15)]).getV 5).toNat = (15 : Key).val ∧ 15 < ((withRegs [(5, 16)]).getV 5).toNat := by decide

theorem witness_KeyWaitTakesLowestKey :
    (pressed [15, 3] State.reset).keys[(3 : Key)] = true ∧ (∀ k :
    Key, k < 3 → (pressed [15, 3] State.reset).keys[k] = false) ∧
    ∀ k : Key, State.reset.keys[k] = false := by
  decide

theorem witness_KeyWaitSpins :
    (atEnd 0xF30A).fault = none ∧ fetchWord (atEnd 0xF30A) = some (encode (.ldVxK 3)) ∧ ∀ k :
    Key, (atEnd 0xF30A).keys[k] = false := by
  decide

theorem witness_OnlyListedInstructionsWriteV :
    exec .nop State.reset = .next State.reset ∧ writesV .nop 15 = false := ⟨rfl, rfl⟩

theorem witness_OnlyListedInstructionsWriteTheRest_stack :
    ∃ t, exec (.call 0x300) State.reset = .next t ∧ t.sp ≠ State.reset.sp := ⟨_, rfl, by decide⟩

theorem witness_OnlyListedInstructionsWriteTheRest_index :
    ∃ t, exec (.ldINnn 0x300) State.reset = .next t ∧ t.i ≠ State.reset.i := ⟨_, rfl, by decide⟩

theorem witness_OnlyListedInstructionsWriteTheRest_timers :
    ∃ t u, exec (.ldDtVx 1) (withRegs [(1, 5)]) = .next t ∧ t.dt ≠ 0 ∧
    exec (.ldStVx 1) (withRegs [(1, 5)]) = .next u ∧ u.st ≠ 0 :=
  ⟨_, _, rfl, by decide, rfl, by decide⟩

theorem witness_OnlyListedInstructionsWriteTheRest_screen :
    ∃ t, exec .cls (State.reset.setScreen (oneCell 0 0)) = .next t ∧ t.screen ≠ oneCell 0 0 := ⟨_, rfl, by decide⟩

theorem witness_OnlyListedInstructionsWriteTheRest_memory :
    ∃ t, exec (.ldMemVx 0) ((withRegs [(0, 1)]).setI 0xFFF) = .next t ∧
    t.mem.read 0xFFF ≠ (withRegs [(0, 1)]).mem.read 0xFFF :=
  ⟨_, rfl, by decide⟩

theorem witness_OnlyListedInstructionsWriteTheRest_draws :
    ∃ t, exec (.rnd 0 0xFF) State.reset = .next t ∧ t.draws ≠ State.reset.draws := ⟨_, rfl, by decide⟩

theorem witness_ProgramCounterAfterStep : ∃ t, step (atEnd 0x3000) = .next t ∧ t.pc = 0x1002 := ⟨_, rfl, rfl⟩

theorem inv_atEnd (w : Nat) : (atEnd w).Inv :=
  ⟨Memory.writeFrom_wf Memory.reset_wf _ _, show (0xFFE : Word).toNat ≤ 0x10FE by decide,
    show ∀ k : Fin 16, (State.reset.stack[k]).toNat ≤ 0x1000 by decide⟩

theorem witness_StepKeepsInvariant : (atEnd 0x0000).Inv ∧ ∃ t, step (atEnd 0x0000) = .next t := ⟨inv_atEnd _, _, rfl⟩

theorem witness_StepKeepsInvariant_fault :
    (atEnd 0x00EE).Inv ∧ ∃ r t, step (atEnd 0x00EE) = .fault (.fatal r t) := ⟨inv_atEnd _, _, _, rfl⟩

theorem witness_ReachableStatesMeetInvariant : Reachable State.reset := ⟨[], rfl⟩

theorem witness_ProgramCounterNeverWraps :
    fetchWord (atEnd 0x3000) = some 0x3000 ∧ ∃ t, step (atEnd 0x3000) = .next t ∧ t.pc = 0x1002 :=
  ⟨by decide, _, rfl, rfl⟩

theorem witness_ProgramCounterNeverWraps_jump :
    ∃ t, step ((State.reset.setPc 0xFFE).withFetchWord 16 0xBFFF) = .next t ∧ t.pc = 0xFFF := ⟨_, rfl, rfl⟩

theorem witness_ProgramCounterNeverWraps_ret :
    ∃ t, run { State.reset with sp := 16, stack := State.reset.stack.set 15 0x202 } 0x00EE = .next t ∧ t.pc = 0x202 :=
  ⟨_, rfl, rfl⟩

theorem witness_EqualMemoriesAreEqualData : Memory.wf ⟨[(0x200, 0x12), (0xFFF, 0x01)]⟩ := by decide

theorem witness_StoreIsSeenByNextFetch :
    ∃ s : State, s.pc = 0xFFE ∧ s.i = s.pc ∧ s.pc.toNat + 1 < 4096 := ⟨(State.reset.setPc 0xFFE).setI 0xFFE, by decide⟩

theorem witness_SpinEndStays : SpinEnd (State.reset.withFetchWord 16 0x1200) := ⟨rfl, 0x200, by decide, by decide⟩

/-- Two states that differ in a stale slot. -/
theorem stale_pair (s : State) (h : s.sp = 0) : SameButStaleSlots s { s with stack := s.stack.set 15 0x202 } :=
  ⟨rfl, fun k hk => absurd hk (by rw [h]; exact Nat.not_lt_zero _)⟩

theorem witness_StaleStackSlotsAreUnobservable :
    SameButStaleSlots (atEnd 0x2300) { atEnd 0x2300 with stack := (atEnd 0x2300).stack.set 15 0x202 } ∧
    (∃ t, step (atEnd 0x2300) = .next t) ∧ (∃ r t, step (atEnd 0x00EE) = .fault (.fatal r t)) ∧
    ∃ r, step (State.reset.latch someRecord) = .refused r := ⟨stale_pair _ rfl, ⟨_, rfl⟩, ⟨_, _, rfl⟩, _, rfl⟩

theorem witness_SoundTimerIsNotRead :
    (∃ t, step (atEnd 0xF118) = .next t) ∧ (∃ r t, step (atEnd 0x00EE) = .fault (.fatal r t)) ∧
    ∃ r, step (State.reset.latch someRecord) = .refused r := ⟨⟨_, rfl⟩, ⟨_, _, rfl⟩, _, rfl⟩

theorem witness_TickCountsDown : (State.reset.setSt 1).fault = none ∧ (State.reset.setSt 1).st.toNat = 1 := by decide

theorem witness_HostOperations : (2047 : Fin 2048).val = (31 : Fin 32).val * 64 + (63 : Fin 64).val := by decide

theorem witness_RomLoad : (List.replicate 3584 (0x12 : Byte)).length ≤ 3584 := by rw [List.length_replicate]

theorem witness_RomLoad_keys :
    ([(3, true), (7, true), (3, false)] : List (Key × Bool)) = [(3, true), (7, true)] ++ (3, false) :: [] ∧
    (∀ b : Bool, ((15 : Key), b) ∉ ([(3, true), (7, true), (3, false)] : List (Key × Bool))) := by decide

/-- R262: the ROM is loaded, and the last setting of a key stays. -/
theorem test_launch :
    (launch [0x12, 0x00] [(3, true), (7, true), (3, false)]).map
      (fun t => (t.mem.read 0x200, t.keys[3], t.keys[7])) = some (some 0x12, false, true) := by
  decide

theorem witness_OperationsKeepInvariant :
    (atEnd 0x0000).Inv ∧ (perform .step (atEnd 0x0000)).isSome ∧ (perform .tick (atEnd 0x0000)).isSome ∧
    (perform .reset (atEnd 0x0000)).isSome ∧
    (perform (.writeMem 4095 1) (atEnd 0x0000)).isSome ∧ (perform (.setKey 15 true) (atEnd 0x0000)).isSome :=
  ⟨inv_atEnd _, rfl, rfl, rfl, rfl, rfl⟩

theorem witness_OperationsKeepInvariant_fault :
    (atEnd 0x00EE).Inv ∧ ∃ t r, perform .step (atEnd 0x00EE) = some (t, .faulted r) := ⟨inv_atEnd _, _, _, rfl⟩

theorem witness_EndsOfARun_spin :
    SpinEnd (State.reset.withFetchWord 16 0x1200) ∧ Op.reset ∉ [Op.step, .tick, .setKey 5 true, .step] ∧
    ∀ a b, Op.writeMem a b ∉ [Op.step, .tick, .setKey 5 true, .step] :=
  ⟨⟨rfl, 0x200, by decide, by decide⟩, by decide, by simp⟩

theorem witness_EndsOfARun_fuel :
    ¬ Faulted State.reset ∧ ∃ u v t, StepsOnly 1 State.reset u ∧ perform .tick u = some (v, .toneStop false) ∧
    StepsOnly 1 v t ∧ t.pc = 0x204 :=
  ⟨fun h => h rfl, _, _, _, rfl, rfl, rfl, rfl⟩

theorem witness_EndsOfARun_stop : ∃ r t, step (atEnd 0x00EE) = .fault (.fatal r t) := ⟨_, _, rfl⟩

theorem witness_EndsOfARun_faulted :
    Faulted (State.reset.latch someRecord) ∧
    ∃ t, performAll [.setKey 3 true, .read] (State.reset.latch someRecord) = some t :=
  ⟨(by intro h; cases h), _, rfl⟩

/-- R268 (b): STEPs with a TICK and a key between them are a fuel end of the STEPs. -/
theorem test_fuelEnd : ∃ t, FuelEnd 2 State.reset t ∧ t.pc = 0x204 :=
  ⟨_, ⟨[.step, .tick, .setKey 5 true, .step], by decide, by decide, rfl, fun h => h rfl⟩, rfl⟩

end Sys2Proof.Machine.Slice0
end

section
/-! The execute stage and STEP as equations: what decides whether an instruction completes, what it leaves, where PC goes
and what it never writes. The proofs about states and runs rest on these and do not unfold `exec` or `step` again. -/

namespace Sys2Proof.Machine

/-! ### The effects of CALL and RET -/

/-- RET's effect on a stack that is not empty (spec R103). -/
theorem effect_ret_ok (s : State) (h : s.sp.val ≠ 0) :
    effect .ret s = State.setPc { s with sp := ⟨s.sp.val - 1, by omega⟩ } (s.stack[s.sp.val - 1]'(by omega)) := by
  simp only [effect, s.pop_ok h]

/-- On an empty stack RET's effect says nothing. -/
theorem effect_ret_empty (s : State) (h : s.sp.val = 0) : effect .ret s = s := by
  simp only [effect, s.pop_empty h]

/-- CALL's effect on a stack that is not full (spec R106). -/
theorem effect_call_ok (s : State) (nnn : Addr) (h : s.sp.val < 16) :
    effect (.call nnn) s =
      State.setPc { s with stack := s.stack.set s.sp.val s.pc, sp := ⟨s.sp.val + 1, by omega⟩ } (zext16 nnn) := by
  simp only [effect, s.push_ok s.pc h]

/-- On a full stack CALL's effect says nothing. -/
theorem effect_call_full (s : State) (nnn : Addr) (h : ¬ s.sp.val < 16) : effect (.call nnn) s = s := by
  simp only [effect, s.push_full s.pc (show s.sp.val = 16 by omega)]

/-! ### An instruction completes with its effect, or raises the fault `faultOf` names -/

/-- Where `faultOf` names no fault, the instruction completes with its effect (spec R231, R233). -/
theorem exec_of_faultOf_none {i : Instr} {s : State} (h : faultOf i s = none) : exec i s = .next (effect i s) := by
  cases i <;> simp only [faultOf, ite_eq_right_iff, reduceCtorEq, imp_false] at h
  case ret => rw [exec_ret_ok s h, effect_ret_ok s h]
  case call nnn =>
    have hsp : s.sp.val < 16 := by omega
    rw [exec_call_ok s nnn hsp, effect_call_ok s nnn hsp]
  case drw x y n => exact exec_drw_ok s x y n (by simp only [dataAddress]; omega)
  case ldBVx x => exact exec_ldBVx_ok s x (by simp only [dataAddress]; omega)
  case ldMemVx x => exact exec_ldMemVx_ok s x (Nat.not_le.1 h)
  case ldVxMem x => exact exec_ldVxMem_ok s x (Nat.not_le.1 h)
  case skp x =>
    have hx : (s.getV x).toNat < 16 := Nat.lt_succ_of_le (Nat.not_lt.1 h)
    simp only [exec_skp_ok s x hx, effect, keyIndex_ok s x hx, Fin.getElem_fin]
  case sknp x =>
    have hx : (s.getV x).toNat < 16 := Nat.lt_succ_of_le (Nat.not_lt.1 h)
    simp only [exec_sknp_ok s x hx, effect, keyIndex_ok s x hx, Fin.getElem_fin]
  case ldVxK x =>
    cases hk : lowestPressed s.keys with
    | none => simp only [exec_ldVxK_none s x hk, effect, hk]
    | some j => simp only [exec_ldVxK_pressed s x j hk, effect, hk]
  all_goals rfl

/-- Where `faultOf` names a fault, the instruction raises it (spec R231, R234). -/
theorem exec_of_faultOf_some {i : Instr} {s : State} {c : FaultCause} (h : faultOf i s = some c) :
    exec i s = raise i c s := by
  cases i <;> simp only [faultOf, Option.ite_none_right_eq_some, Option.some.injEq, reduceCtorEq] at h
  case ret => obtain ⟨hsp, rfl⟩ := h; exact exec_ret_empty s hsp
  case call nnn => obtain ⟨hsp, rfl⟩ := h; exact exec_call_full s nnn hsp
  case drw x y n => obtain ⟨ha, rfl⟩ := h; exact exec_drw_fault s x y n ha
  case ldBVx x => obtain ⟨ha, rfl⟩ := h; exact exec_ldBVx_fault s x (by simp only [dataAddress]; omega)
  case ldMemVx x => obtain ⟨ha, rfl⟩ := h; exact exec_ldMemVx_fault s x ha
  case ldVxMem x => obtain ⟨ha, rfl⟩ := h; exact exec_ldVxMem_fault s x ha
  case skp x => obtain ⟨hx, rfl⟩ := h; exact exec_skp_fault s x hx
  case sknp x => obtain ⟨hx, rfl⟩ := h; exact exec_sknp_fault s x hx

/-- An instruction that completes names no fault. -/
theorem faultOf_of_exec_next {i : Instr} {s t : State} (h : exec i s = .next t) : faultOf i s = none := by
  cases hc : faultOf i s with
  | none => rfl
  | some c => rw [exec_of_faultOf_some hc] at h; cases h

/-- An instruction that faults raises the fault `faultOf` names. -/
theorem exec_fault {i : Instr} {s : State} {f : Fault} (h : exec i s = .fault f) :
    ∃ c, faultOf i s = some c ∧ raise i c s = .fault f := by
  cases hc : faultOf i s with
  | none => rw [exec_of_faultOf_none hc] at h; cases h
  | some c => exact ⟨c, rfl, exec_of_faultOf_some hc ▸ h⟩

/-- No instruction is refused. -/
theorem exec_ne_refused (i : Instr) (s : State) (r : Refusal) : exec i s ≠ .refused r := by
  cases hc : faultOf i s with
  | none => simp [exec_of_faultOf_none hc]
  | some c => simp [exec_of_faultOf_some hc]

/-! ### STEP, one equation for each stage it can end in (spec R70) -/

/-- STEP on a halted core (spec R44). -/
theorem step_halted {s : State} {r : FaultRecord} (hf : s.fault = some r) : step s = .refused (.coreHalted r) := by
  simp only [step, stepOnce, hf]

/-- STEP whose fetch fails (spec R71). -/
theorem step_fetch_none {s : State} (hf : s.fault = none) (hw : fetchWord s = none) : step s = raiseFetch s := by
  simp only [step, stepOnce, hf, fetchDecodeExecute, hw]

/-- STEP at an unimplemented word (spec R76). -/
theorem step_decode_none {s : State} {w : Word} (hf : s.fault = none) (hw : fetchWord s = some w)
    (hi : decodeWord w = none) : step s = raiseUnimplemented w s.advance := by
  simp only [step, stepOnce, hf, fetchDecodeExecute, hw, decodeExecute, hi]

/-- STEP at an instruction executes it after the PC advance (spec R72, R81). -/
theorem step_eq_exec {s : State} {w : Word} {i : Instr} (hf : s.fault = none) (hw : fetchWord s = some w)
    (hi : decodeWord w = some i) : step s = exec i s.advance := by
  simp only [step, stepOnce, hf, fetchDecodeExecute, hw, decodeExecute, hi]

/-- A STEP is refused on a halted core alone (spec R44). -/
theorem step_refused {s : State} {r : Refusal} (h : step s = .refused r) :
    ∃ record, s.fault = some record ∧ r = .coreHalted record := by
  cases hf : s.fault with
  | some record => rw [step_halted hf] at h; cases h; exact ⟨record, rfl, rfl⟩
  | none =>
    cases hw : fetchWord s with
    | none => rw [step_fetch_none hf hw] at h; cases h
    | some w =>
      cases hi : decodeWord w with
      | none => rw [step_decode_none hf hw hi] at h; cases h
      | some i => rw [step_eq_exec hf hw hi] at h; exact absurd h (exec_ne_refused _ _ _)

/-- A faulting STEP leaves the state before it, or the one after the PC advance where the fetch succeeded, with the
record latched (spec R234, R236). -/
theorem step_fault_state {s t : State} {r : FaultRecord} (h : step s = .fault (.fatal r t)) :
    t = s.latch r ∨ ((fetchWord s).isSome ∧ t = s.advance.latch r) := by
  obtain ⟨-, ⟨-, h⟩ | ⟨w, hw, ⟨-, h⟩ | ⟨i, -, h⟩⟩⟩ := step_fault h
  · cases h; exact .inl rfl
  · cases h; exact .inr ⟨by simp [hw], rfl⟩
  · obtain ⟨c, -, h⟩ := exec_fault h
    cases h; exact .inr ⟨by simp [hw], rfl⟩

/-- A faulting STEP latches its record (spec R236). -/
theorem step_fault_latched {s t : State} {r : FaultRecord} (h : step s = .fault (.fatal r t)) : t.fault = some r := by
  obtain rfl | ⟨-, rfl⟩ := step_fault_state h <;> rfl

/-- A fetch succeeds only with PC at most 0xFFE (spec R71). -/
theorem pc_le_of_fetchWord {s : State} {w : Word} (h : fetchWord s = some w) : s.pc.toNat ≤ 0xFFE := by
  by_contra hlt
  rw [fetchWord_none s (by omega)] at h
  cases h

/-- Where the fetch succeeds the PC advance adds two, exactly (spec R25, R72). -/
theorem advance_pc_toNat {s : State} {w : Word} (h : fetchWord s = some w) : s.advance.pc.toNat = s.pc.toNat + 2 := by
  have hpc := pc_le_of_fetchWord h
  rw [State.advance_pc]
  bv_omega

/-! ### What an effect writes -/

/-- The skips of EX9E, EXA1 and the register skips are all `skipIf` (spec R82), which writes PC alone. -/
theorem State.skipIf_eq (s : State) (c : Bool) : s.skipIf c = { s with pc := (s.skipIf c).pc } := by
  cases c <;> rfl

/-- EX9E's effect is a skip; without a key index it says nothing, which is the skip not taken. -/
theorem effect_skp (x : Reg) (s : State) :
    effect (.skp x) s = s.skipIf ((keyIndex s x).elim false (fun k => s.keys[k])) := by
  simp only [effect]
  split <;> simp_all [State.skipIf]

/-- EXA1's effect is a skip; without a key index it says nothing, which is the skip not taken. -/
theorem effect_sknp (x : Reg) (s : State) :
    effect (.sknp x) s = s.skipIf ((keyIndex s x).elim false (fun k => !s.keys[k])) := by
  simp only [effect]
  split <;> simp_all [State.skipIf]

/-- The fields an instruction may write (spec R81), each with some value: `t` is `s` but for those. -/
def WritesOnly : Instr → State → State → Prop
  | .ret, s, t => ∃ pc sp, t = { s with pc := pc, sp := sp }
  | .call _, s, t => ∃ pc sp stack, t = { s with pc := pc, sp := sp, stack := stack }
  | .ldINnn _, s, t | .addIVx _, s, t | .ldFVx _, s, t => ∃ i, t = { s with i := i }
  | .ldDtVx _, s, t => ∃ b, t = { s with dt := b }
  | .ldStVx _, s, t => ∃ b, t = { s with st := b }
  | .cls, s, t | .drw _ _ _, s, t => ∃ v p, t = { s with v := v, screen := p }
  | .ldBVx _, s, t | .ldMemVx _, s, t => ∃ m, t = { s with mem := m }
  | .rnd _ _, s, t => ∃ v n, t = { s with v := v, draws := n }
  | _, s, t => ∃ v pc, t = { s with v := v, pc := pc }

/-- An effect writes only the fields of its instruction (spec R81). -/
theorem effect_writesOnly (i : Instr) (s : State) : WritesOnly i s (effect i s) := by
  cases i
  case ret =>
    by_cases h : s.sp.val = 0
    · exact ⟨_, _, effect_ret_empty s h⟩
    · exact ⟨_, _, effect_ret_ok s h⟩
  case call nnn =>
    by_cases h : s.sp.val < 16
    · exact ⟨_, _, _, effect_call_ok s nnn h⟩
    · exact ⟨_, _, _, effect_call_full s nnn h⟩
  case seVxNn | sneVxNn | seVxVy | sneVxVy => exact ⟨_, _, State.skipIf_eq ..⟩
  case skp x => rw [effect_skp]; exact ⟨_, _, State.skipIf_eq ..⟩
  case sknp x => rw [effect_sknp]; exact ⟨_, _, State.skipIf_eq ..⟩
  case ldVxK x => simp only [effect]; split <;> exact ⟨_, _, rfl⟩
  case ldINnn | addIVx | ldFVx | ldDtVx | ldStVx | ldBVx | ldMemVx => exact ⟨_, rfl⟩
  all_goals exact ⟨_, _, rfl⟩

/-- No effect writes the fault latch (spec R44). -/
theorem effect_fault (i : Instr) (s : State) : (effect i s).fault = s.fault := by
  have h := effect_writesOnly i s
  cases i
  case call => obtain ⟨_, _, _, h⟩ := h; rw [h]
  case ldINnn | addIVx | ldFVx | ldDtVx | ldStVx | ldBVx | ldMemVx => obtain ⟨_, h⟩ := h; rw [h]
  all_goals obtain ⟨_, _, h⟩ := h; rw [h]

/-- A STEP that completes leaves the fault latch clear (spec R44). -/
theorem step_next_fault {s t : State} (h : step s = .next t) : t.fault = none := by
  obtain ⟨hf, w, i, -, -, -, rfl⟩ := step_next h
  exact (effect_fault i s.advance).trans hf

/-- The instructions that skip (spec R108-R111, R210, R211). -/
def IsSkip (i : Instr) : Prop :=
  (∃ x nn, i = .seVxNn x nn ∨ i = .sneVxNn x nn) ∨ (∃ x y, i = .seVxVy x y ∨ i = .sneVxVy x y) ∨
    ∃ x, i = .skp x ∨ i = .sknp x

/-- Where an effect leaves PC (spec R24), from the PC after the advance: there; two further for a skip taken; two back
for FX0A with no key pressed; or at the target of 1NNN, 2NNN, BNNN or 00EE. -/
theorem effect_pc (i : Instr) (s : State) :
    (effect i s).pc = s.pc ∨ ((effect i s).pc = s.pc + 2 ∧ IsSkip i) ∨
    ((effect i s).pc = s.pc - 2 ∧ (∃ x, i = .ldVxK x) ∧ ∀ k : Key, s.keys[k] = false) ∨
    (∃ nnn, (i = .jp nnn ∨ i = .call nnn) ∧ (effect i s).pc.toNat = nnn.toNat) ∨
    (∃ nnn, i = .jpV0 nnn ∧ (effect i s).pc.toNat = (s.getV 0).toNat + nnn.toNat) ∨
    (i = .ret ∧ ∃ k : Fin 16, s.sp.val = k.val + 1 ∧ (effect i s).pc = s.stack[k]) := by
  have ofSkip : ∀ (c : Bool) {P : Prop}, IsSkip i → effect i s = s.skipIf c →
      (effect i s).pc = s.pc ∨ ((effect i s).pc = s.pc + 2 ∧ IsSkip i) ∨ P := by
    rintro (_ | _) P hi he
    · exact .inl (by rw [he]; rfl)
    · exact .inr (.inl ⟨by rw [he]; rfl, hi⟩)
  cases i
  case jp nnn => exact .inr (.inr (.inr (.inl ⟨nnn, .inl rfl, zext16_toNat nnn⟩)))
  case jpV0 nnn => exact .inr (.inr (.inr (.inr (.inl ⟨nnn, rfl, indexedTarget_toNat s nnn⟩))))
  case call nnn =>
    by_cases h : s.sp.val < 16
    · refine .inr (.inr (.inr (.inl ⟨nnn, .inr rfl, ?_⟩)))
      rw [effect_call_ok s nnn h, State.setPc_pc, zext16_toNat]
    · exact .inl (by rw [effect_call_full s nnn h])
  case ret =>
    by_cases h : s.sp.val = 0
    · exact .inl (by rw [effect_ret_empty s h])
    · refine .inr (.inr (.inr (.inr (.inr ⟨rfl, ⟨s.sp.val - 1, by omega⟩, by simp only; omega, ?_⟩))))
      rw [effect_ret_ok s h]; rfl
  case ldVxK x =>
    cases hk : lowestPressed s.keys with
    | some j => exact .inl (by simp only [effect, hk, State.setV_pc])
    | none =>
      refine .inr (.inr (.inl ⟨?_, ⟨x, rfl⟩, lowestPressed_eq_none.1 hk⟩))
      simp only [effect, hk, State.rewind_pc]
  case seVxNn x nn => exact ofSkip _ (.inl ⟨x, nn, .inl rfl⟩) rfl
  case sneVxNn x nn => exact ofSkip _ (.inl ⟨x, nn, .inr rfl⟩) rfl
  case seVxVy x y => exact ofSkip _ (.inr (.inl ⟨x, y, .inl rfl⟩)) rfl
  case sneVxVy x y => exact ofSkip _ (.inr (.inl ⟨x, y, .inr rfl⟩)) rfl
  case skp x => exact ofSkip _ (.inr (.inr ⟨x, .inl rfl⟩)) (effect_skp x s)
  case sknp x => exact ofSkip _ (.inr (.inr ⟨x, .inr rfl⟩)) (effect_sknp x s)
  all_goals exact .inl rfl

end Sys2Proof.Machine
end

section
/-! Which instruction writes which state, and where a STEP leaves PC (spec R23-R25). -/

namespace Sys2Proof.Machine

/-- A write of V[x] leaves every other register as it was. -/
theorem State.getV_setV_other {x j : Reg} (h : (x == j) = false) (s : State) (b : Byte) :
    (s.setV x b).getV j = s.getV j := by
  rw [State.getV_setV, if_neg (fun hj => by simp [hj] at h)]

/-- A result in V[x] and a flag in VF leave every other register as it was. -/
theorem State.getV_setVFlag_other {x j : Reg} (h : (x == j || j == 15) = false) (s : State) (r f : Byte) :
    (s.setVFlag x r f).getV j = s.getV j := by
  obtain ⟨hx, hF⟩ := Bool.or_eq_false_iff.1 h
  rw [State.getV_setVFlag, if_neg (by simpa using hF), if_neg (fun hj => by simp [hj] at hx)]

/-- An effect leaves a V register that `writesV` does not list as it was (spec R23). -/
theorem effect_getV {i : Instr} {j : Reg} (h : writesV i j = false) (s : State) :
    (effect i s).getV j = s.getV j := by
  have hw := effect_writesOnly i s
  cases i
  case call => obtain ⟨_, _, _, hw⟩ := hw; rw [hw]; rfl
  case ret => obtain ⟨_, _, hw⟩ := hw; rw [hw]; rfl
  case ldINnn | addIVx | ldFVx | ldDtVx | ldStVx | ldBVx | ldMemVx => obtain ⟨_, hw⟩ := hw; rw [hw]; rfl
  case nop | cls | jp | jpV0 => rfl
  case seVxNn | sneVxNn | seVxVy | sneVxVy => exact State.getV_skipIf ..
  case skp => rw [effect_skp, State.getV_skipIf]
  case sknp => rw [effect_sknp, State.getV_skipIf]
  case ldVxNn | addVxNn | ldVxVy | orVxVy | andVxVy | xorVxVy | ldVxDt => exact State.getV_setV_other h ..
  case rnd => exact State.getV_setV_other h ..
  case addVxVy | sub | shr | subn | shl => exact State.getV_setVFlag_other h ..
  case drw => exact State.getV_setV_other (BEq.comm.trans h) ..
  case ldVxK x =>
    simp only [effect]
    split
    · rfl
    · exact State.getV_setV_other h ..
  case ldVxMem x =>
    have hx : ¬ j.val ≤ x.val := of_decide_eq_false h
    show (setRegsFrom s.v 0 (bytesAtI s (x.val + 1)))[j] = s.v[j]
    rw [setRegsFrom_getElem, dif_neg (by simp only [List.length_map, List.length_range]; omega)]

/-- Settles O38: a completing instruction leaves its effect, and that keeps the registers not listed. -/
theorem onlyListedInstructionsWriteV : Obligations.OnlyListedInstructionsWriteV := by
  intro i s t j h hj
  rw [exec_next h]
  exact effect_getV hj s

/-- Settles O39: field by field from the fields each instruction may write. -/
theorem onlyListedInstructionsWriteTheRest : Obligations.OnlyListedInstructionsWriteTheRest := by
  intro i s t h
  have hw := effect_writesOnly i s
  rw [← exec_next h] at hw
  cases i
  case call => obtain ⟨_, _, _, rfl⟩ := hw; simp
  case ldINnn | addIVx | ldFVx | ldDtVx | ldStVx | ldBVx | ldMemVx => obtain ⟨_, rfl⟩ := hw; simp
  all_goals obtain ⟨_, _, rfl⟩ := hw; simp

/-- Settles O40: the effect's PC, counted from the instruction's address instead of the address after it. -/
theorem programCounterAfterStep : Obligations.ProgramCounterAfterStep := by
  intro s t h
  obtain ⟨-, w, i, hw, hi, -, rfl⟩ := step_next h
  refine ⟨w, i, hw, hi, ?_⟩
  obtain hpc | ⟨hpc, hskip⟩ | ⟨hpc, hwait⟩ | hjump | hindexed | hret := effect_pc i s.advance
  · exact .inl hpc
  · exact .inr (.inl ⟨by rw [hpc, State.advance_pc, BitVec.add_assoc]; rfl, hskip⟩)
  · exact .inr (.inr (.inl ⟨by rw [hpc, State.advance_pc, BitVec.add_sub_cancel], hwait⟩))
  · exact .inr (.inr (.inr (.inl hjump)))
  · exact .inr (.inr (.inr (.inr (.inl hindexed))))
  · exact .inr (.inr (.inr (.inr (.inr hret))))

/-- The target of 1NNN, 2NNN or BNNN is at most 0x10FE (spec R25, R105). -/
theorem jump_target_le (b : Byte) (nnn : Addr) : b.toNat + nnn.toNat ≤ 0x10FE := by
  have hb := b.isLt
  have hn := nnn.isLt
  omega

/-- Where a STEP that completes leaves PC, as an exact number (spec R24, R25). -/
theorem step_pc_toNat {s t : State} {w : Word} (hw : fetchWord s = some w) (h : step s = .next t) :
    ∃ i : Instr, decodeWord w = some i ∧
      (t.pc.toNat = s.pc.toNat ∨ t.pc.toNat = s.pc.toNat + 2 ∨ t.pc.toNat = s.pc.toNat + 4 ∨
      (t.pc.toNat ≤ 0x10FE ∧ ∃ nnn, i = .jp nnn ∨ i = .call nnn ∨ i = .jpV0 nnn) ∨
      (i = .ret ∧ ∃ k : Fin 16, s.sp.val = k.val + 1 ∧ t.pc = s.stack[k])) := by
  have hle := pc_le_of_fetchWord hw
  obtain ⟨w', i, hw', hi, hpc⟩ := programCounterAfterStep s t h
  obtain rfl : w = w' := Option.some.inj (hw.symm.trans hw')
  refine ⟨i, hi, ?_⟩
  obtain hpc | ⟨hpc, -⟩ | ⟨hpc, -⟩ | ⟨nnn, hi, hpc⟩ | ⟨nnn, hi, hpc⟩ | hret := hpc
  · exact .inr (.inl (by rw [hpc]; bv_omega))
  · exact .inr (.inr (.inl (by rw [hpc]; bv_omega)))
  · exact .inl (by rw [hpc])
  · have hmax := jump_target_le 0 nnn
    exact .inr (.inr (.inr (.inl ⟨by omega, nnn, hi.imp_right .inl⟩)))
  · have hmax := jump_target_le (s.getV 0) nnn
    exact .inr (.inr (.inr (.inl ⟨by omega, nnn, .inr (.inr hi)⟩)))
  · exact .inr (.inr (.inr (.inr hret)))

/-- Settles O45: a fetch succeeds only up to 0xFFE, so no sum of PC reaches 65536. -/
theorem programCounterNeverWraps : Obligations.ProgramCounterNeverWraps := by
  intro s w hw
  have hle := pc_le_of_fetchWord hw
  have hadv := advance_pc_toNat hw
  have hskip : (s.advance.skipIf true).pc.toNat = s.pc.toNat + 4 := by
    simp only [State.skipIf_pc, if_true]
    bv_omega
  have hback : s.advance.rewind.pc.toNat = s.pc.toNat := by
    rw [State.rewind_pc]
    bv_omega
  exact ⟨hle, hadv, hskip, by omega, hadv, hback, fun t => step_pc_toNat hw⟩

/-- Settles O18: the CALL pushes PC in slot SP and the RET pops that slot. -/
theorem callThenReturnComesBack : Obligations.CallThenReturnComesBack := by
  intro s nnn hsp
  refine ⟨_, _, exec_call_ok s nnn hsp, exec_ret_ok _ (by simp), ?_, fun k hk => ?_⟩
  · simp [State.setPc]
  · simp [Ne.symm hk]

end Sys2Proof.Machine
end

section
/-! The invariant of every reachable state (spec R25, R48): RESET meets it and every operation of the block keeps it. -/

namespace Sys2Proof.Machine

/-- An effect keeps memory canonical (log 4). -/
theorem effect_mem_wf {s : State} (h : s.mem.wf) (i : Instr) : (effect i s).mem.wf := by
  have hw := effect_writesOnly i s
  cases i
  case call => obtain ⟨_, _, _, hw⟩ := hw; rw [hw]; exact h
  case ldINnn | addIVx | ldFVx | ldDtVx | ldStVx => obtain ⟨_, hw⟩ := hw; rw [hw]; exact h
  case ldBVx | ldMemVx => exact Memory.writeFrom_wf h ..
  all_goals obtain ⟨_, _, hw⟩ := hw; rw [hw]; exact h

/-- An effect changes a stack slot only to PC, the return address CALL pushes (spec R28, R101). -/
theorem effect_stack (i : Instr) (s : State) (k : Fin 16) :
    (effect i s).stack[k] = s.stack[k] ∨ (effect i s).stack[k] = s.pc := by
  have hw := effect_writesOnly i s
  cases i
  case call nnn =>
    by_cases hsp : s.sp.val < 16
    · rw [effect_call_ok s nnn hsp]
      simp only [State.setPc_stack, Fin.getElem_fin, Vector.getElem_set]
      split
      · exact .inr rfl
      · exact .inl rfl
    · exact .inl (by rw [effect_call_full s nnn hsp])
  case ldINnn | addIVx | ldFVx | ldDtVx | ldStVx | ldBVx | ldMemVx => obtain ⟨_, hw⟩ := hw; rw [hw]; exact .inl rfl
  all_goals obtain ⟨_, _, hw⟩ := hw; rw [hw]; exact .inl rfl

/-- The PC advance of a successful fetch keeps the invariant (spec R25, R72). -/
theorem State.Inv.advance {s : State} (h : s.Inv) {w : Word} (hw : fetchWord s = some w) : s.advance.Inv := by
  refine ⟨h.mem_wf, ?_, h.stack_le⟩
  have hle := pc_le_of_fetchWord hw
  rw [advance_pc_toNat hw]
  omega

/-- The record of a fault is no part of the invariant. -/
theorem State.Inv.latch {s : State} (h : s.Inv) (r : FaultRecord) : (s.latch r).Inv :=
  ⟨h.mem_wf, h.pc_le, h.stack_le⟩

/-- A STEP that completes keeps the invariant: the stack gets at most the address after the CALL, and PC stays within
0x10FE (spec R25). -/
theorem State.Inv.step_next {s t : State} (h : s.Inv) (hs : step s = .next t) : t.Inv := by
  obtain ⟨-, w, i, hw, -, -, rfl⟩ := Machine.step_next hs
  have hle := pc_le_of_fetchWord hw
  have hadv := advance_pc_toNat hw
  refine ⟨effect_mem_wf (s := s.advance) h.mem_wf i, ?_, fun k => ?_⟩
  · obtain ⟨j, -, hpc | hpc | hpc | ⟨hpc, -⟩ | ⟨-, k, -, hpc⟩⟩ := step_pc_toNat hw hs
    · omega
    · omega
    · omega
    · exact hpc
    · have hk := h.stack_le k
      rw [hpc]
      omega
  · obtain hk | hk := effect_stack i s.advance k <;> rw [hk]
    · exact h.stack_le k
    · omega

/-- A STEP that faults keeps the invariant: its state is the one before, or after the PC advance, with the record. -/
theorem State.Inv.step_fault {s t : State} {r : FaultRecord} (h : s.Inv) (hs : step s = .fault (.fatal r t)) : t.Inv := by
  obtain rfl | ⟨hw, rfl⟩ := step_fault_state hs
  · exact h.latch r
  · obtain ⟨w, hw⟩ := Option.isSome_iff_exists.1 hw
    exact (h.advance hw).latch r

/-- Settles O43: both ends of a STEP keep the invariant. -/
theorem stepKeepsInvariant : Obligations.StepKeepsInvariant :=
  fun _ h => ⟨fun _ => h.step_next, fun _ _ => h.step_fault⟩

/-- The state after RESET: memory lists no cell, PC is 0x200 and every slot is 0 (spec R47). -/
theorem State.reset_inv : State.reset.Inv := ⟨Memory.reset_wf, by decide, by decide⟩

/-- Settles O42. -/
theorem resetMeetsInvariant : Obligations.ResetMeetsInvariant := State.reset_inv

/-! ### The block's operations -/

/-- What a STEP of the block can do: complete, or fault with its record (spec R37). -/
theorem perform_step {s t : State} {o : OpOutput} (h : perform .step s = some (t, o)) :
    (step s = .next t ∧ o = .silent) ∨ ∃ r, step s = .fault (.fatal r t) ∧ o = .faulted r := by
  simp only [perform, performStep] at h
  split at h
  · rename_i u hu
    cases h
    exact .inl ⟨hu, rfl⟩
  · rename_i r u hu
    cases h
    exact .inr ⟨r, hu, rfl⟩
  · cases h

/-- TICK on a core that is not halted counts the timers down (spec R240). -/
theorem perform_tick_ok {s : State} (h : s.fault = none) :
    perform .tick s = some (s.countedDown, .toneStop (toneStop s)) := by
  simp only [perform, performTick, tick, h]

/-- What a TICK of the block can do: count the timers down, with no fault latched (spec R240). -/
theorem perform_tick {s t : State} {o : OpOutput} (h : perform .tick s = some (t, o)) :
    s.fault = none ∧ t = s.countedDown ∧ o = .toneStop (toneStop s) := by
  cases hf : s.fault with
  | some r => simp [perform, performTick, tick, hf] at h
  | none =>
    rw [perform_tick_ok hf] at h
    cases h
    exact ⟨rfl, rfl, rfl⟩

/-- Settles O54: one case an operation; only STEP, RESET and HOST_WRITE_MEM write what the invariant speaks of. -/
theorem operationsKeepInvariant : Obligations.OperationsKeepInvariant := by
  intro s t op o hs h
  cases op with
  | reset => cases h; exact ⟨State.reset_inv.mem_wf, State.reset_inv.pc_le, State.reset_inv.stack_le⟩
  | step =>
    obtain ⟨h, -⟩ | ⟨r, h, -⟩ := perform_step h
    · exact hs.step_next h
    · exact hs.step_fault h
  | tick => obtain ⟨-, rfl, -⟩ := perform_tick h; exact ⟨hs.mem_wf, hs.pc_le, hs.stack_le⟩
  | setKey k b => cases h; exact ⟨hs.mem_wf, hs.pc_le, hs.stack_le⟩
  | read => cases h; exact hs
  | writeMem a b => cases h; exact ⟨Memory.write_wf hs.mem_wf a b, hs.pc_le, hs.stack_le⟩

/-- What every operation of a run keeps holds at its end. -/
theorem performAll_induction {P : State → Prop} {ops : List Op}
    (hP : ∀ op ∈ ops, ∀ (s t : State) (o : OpOutput), P s → perform op s = some (t, o) → P t) {s t : State}
    (hs : P s) (h : performAll ops s = some t) : P t := by
  induction ops generalizing s with
  | nil => cases h; exact hs
  | cons op ops ih =>
    rw [performAll_cons] at h
    obtain ⟨⟨u, o⟩, hu, h⟩ := Option.bind_eq_some_iff.1 h
    exact ih (fun op' hop => hP op' (List.mem_cons_of_mem _ hop)) (hP op List.mem_cons_self s u o hs hu) h

/-- Settles O44: RESET's state meets the invariant and every operation of the run keeps it. -/
theorem reachableStatesMeetInvariant : Obligations.ReachableStatesMeetInvariant := by
  rintro s ⟨ops, h⟩
  exact performAll_induction (fun op _ s t o => operationsKeepInvariant s t op o) State.reset_inv h

end Sys2Proof.Machine
end

section
/-! What STEP cannot observe (spec R30, R46): the stack slots at or above SP, and ST. -/

namespace Sys2Proof.Machine

/-- A relation `R` of states that STEP cannot tell apart: what the cycle and the checks read is the same in both, the PC
advance and the latching of a record keep `R`, and the effects of one instruction are related by `Q`. -/
structure Indistinguishable (R Q : State → State → Prop) : Prop where
  /-- The fault latch, PC and memory are the same. -/
  cycle : ∀ {s s'}, R s s' → s'.fault = s.fault ∧ s'.pc = s.pc ∧ s'.mem = s.mem
  /-- The PC advance keeps `R`. -/
  advance : ∀ {s s'}, R s s' → R s.advance s'.advance
  /-- Latching a record keeps `R`. -/
  latch : ∀ {s s'} (r : FaultRecord), R s s' → R (s.latch r) (s'.latch r)
  /-- Every instruction's check answers the same. -/
  check : ∀ {s s'} (i : Instr), R s s' → faultOf i s' = faultOf i s
  /-- The effects are related by `Q`. -/
  effects : ∀ {s s'} (i : Instr), R s s' → Q (effect i s) (effect i s')

namespace Indistinguishable

variable {R Q : State → State → Prop} (h : Indistinguishable R Q) {s s' : State} (hs : R s s')

include h hs

/-- Related states fetch the same word. -/
theorem fetchWord_eq : fetchWord s' = fetchWord s := by
  obtain ⟨-, hpc, hmem⟩ := h.cycle hs
  simp only [fetchWord, hpc, hmem]

/-- Related states raise the same record, and the halted states are related. -/
theorem takeFault_related {c : FaultCause} {w : Option Word} {r : FaultRecord} {t : State}
    (ht : takeFault ⟨c, s.pc - 2, w⟩ s = .fault (.fatal r t)) :
    ∃ t', takeFault ⟨c, s'.pc - 2, w⟩ s' = .fault (.fatal r t') ∧ R t t' := by
  cases ht
  exact ⟨_, by rw [(h.cycle hs).2.1]; rfl, h.latch _ hs⟩

/-- Where one STEP completes, so does the other. -/
theorem step_next {t : State} (ht : step s = .next t) : ∃ t', step s' = .next t' ∧ Q t t' := by
  obtain ⟨hf, w, i, hw, hi, hexec, rfl⟩ := Machine.step_next ht
  refine ⟨effect i s'.advance, ?_, h.effects i (h.advance hs)⟩
  rw [step_eq_exec ((h.cycle hs).1.trans hf) ((h.fetchWord_eq hs).trans hw) hi]
  exact exec_of_faultOf_none ((h.check i (h.advance hs)).trans (faultOf_of_exec_next hexec))

/-- Where one STEP faults, the other faults with the same record. -/
theorem step_fault {r : FaultRecord} {t : State} (ht : step s = .fault (.fatal r t)) :
    ∃ t', step s' = .fault (.fatal r t') ∧ R t t' := by
  obtain ⟨hf, hstage⟩ := Machine.step_fault ht
  obtain ⟨hfault, hpc, -⟩ := h.cycle hs
  have hfetch := h.fetchWord_eq hs
  obtain ⟨hw, hr⟩ | ⟨w, hw, ⟨hi, hr⟩ | ⟨i, hi, hr⟩⟩ := hstage
  · rw [step_fetch_none (hfault.trans hf) (hfetch.trans hw)]
    cases hr
    exact ⟨_, by rw [raiseFetch_eq, hpc], h.latch _ hs⟩
  · rw [step_decode_none (hfault.trans hf) (hfetch.trans hw) hi]
    exact h.takeFault_related (h.advance hs) hr
  · rw [step_eq_exec (hfault.trans hf) (hfetch.trans hw) hi]
    obtain ⟨c, hc, hr⟩ := exec_fault hr
    rw [exec_of_faultOf_some ((h.check i (h.advance hs)).trans hc)]
    exact h.takeFault_related (h.advance hs) hr

/-- Where one STEP is refused, so is the other. -/
theorem step_refused {r : Refusal} (ht : step s = .refused r) : step s' = .refused r := by
  obtain ⟨record, hf, rfl⟩ := Machine.step_refused ht
  exact step_halted ((h.cycle hs).1.trans hf)

end Indistinguishable

/-! ### Stale stack slots -/

/-- A skip does not depend on the stack. -/
theorem State.skipIf_withStack (s : State) (k : Vector Word 16) (c : Bool) :
    State.skipIf { s with stack := k } c = { s.skipIf c with stack := k } := by
  cases c <;> rfl

/-- Only CALL and RET read or write the stack (spec R28). -/
theorem effect_withStack {i : Instr} (hret : i ≠ .ret) (hcall : ∀ nnn, i ≠ .call nnn) (s : State)
    (k : Vector Word 16) : effect i { s with stack := k } = { effect i s with stack := k } := by
  cases i
  case ret => exact absurd rfl hret
  case call nnn => exact absurd rfl (hcall nnn)
  case seVxNn | sneVxNn | seVxVy | sneVxVy => exact State.skipIf_withStack ..
  case skp => rw [effect_skp, effect_skp]; exact State.skipIf_withStack ..
  case sknp => rw [effect_sknp, effect_sknp]; exact State.skipIf_withStack ..
  case ldVxK => simp only [effect]; split <;> rfl
  all_goals rfl

/-- Only CALL and RET write the stack and SP (spec R28, R29). -/
theorem effect_stack_sp {i : Instr} (hret : i ≠ .ret) (hcall : ∀ nnn, i ≠ .call nnn) (s : State) :
    (effect i s).stack = s.stack ∧ (effect i s).sp = s.sp := by
  have hw := effect_writesOnly i s
  cases i
  case ret => exact absurd rfl hret
  case call nnn => exact absurd rfl (hcall nnn)
  case ldINnn | addIVx | ldFVx | ldDtVx | ldStVx | ldBVx | ldMemVx => obtain ⟨_, hw⟩ := hw; rw [hw]; exact ⟨rfl, rfl⟩
  all_goals obtain ⟨_, _, hw⟩ := hw; rw [hw]; exact ⟨rfl, rfl⟩

/-- The second of two states that agree but for stale slots is the first with another stack. -/
theorem SameButStaleSlots.exists_stack {s s' : State} (h : SameButStaleSlots s s') :
    ∃ k : Vector Word 16, s' = { s with stack := k } ∧ ∀ j : Fin 16, j.val < s.sp.val → s.stack[j] = k[j] :=
  ⟨s'.stack, h⟩

/-- CALL writes the slot at SP, so the slots below the new SP agree again (spec R101). -/
theorem SameButStaleSlots.effect_call {s s' : State} (h : SameButStaleSlots s s') (nnn : Addr) :
    SameButStaleSlots (effect (.call nnn) s) (effect (.call nnn) s') := by
  obtain ⟨k, rfl, hlow⟩ := h.exists_stack
  by_cases hsp : s.sp.val < 16
  · rw [effect_call_ok s nnn hsp, effect_call_ok { s with stack := k } nnn hsp]
    refine ⟨rfl, fun j hj => ?_⟩
    have hj : j.val < s.sp.val + 1 := hj
    simp only [State.setPc_stack, Fin.getElem_fin, Vector.getElem_set]
    split
    · rfl
    · exact hlow j (by omega)
  · rw [effect_call_full s nnn hsp, effect_call_full { s with stack := k } nnn hsp]
    exact h

/-- RET reads the slot below SP, which agrees (spec R102). -/
theorem SameButStaleSlots.effect_ret {s s' : State} (h : SameButStaleSlots s s') :
    SameButStaleSlots (effect .ret s) (effect .ret s') := by
  obtain ⟨k, rfl, hlow⟩ := h.exists_stack
  by_cases hsp : s.sp.val = 0
  · rw [effect_ret_empty s hsp, effect_ret_empty { s with stack := k } hsp]
    exact h
  · have htop : s.stack[s.sp.val - 1]'(by omega) = k[s.sp.val - 1]'(by omega) :=
      hlow ⟨s.sp.val - 1, by omega⟩ (by simp only; omega)
    rw [effect_ret_ok s hsp, effect_ret_ok { s with stack := k } hsp, htop]
    refine ⟨rfl, fun j hj => hlow j ?_⟩
    have hj : j.val < s.sp.val - 1 := hj
    omega

/-- Every other instruction leaves the stack and SP as they are (spec R28, R29). -/
theorem SameButStaleSlots.effect_other {s s' : State} (h : SameButStaleSlots s s') {i : Instr} (hret : i ≠ .ret)
    (hcall : ∀ nnn, i ≠ .call nnn) : SameButStaleSlots (effect i s) (effect i s') := by
  obtain ⟨k, rfl, hlow⟩ := h.exists_stack
  obtain ⟨hstack, hsp⟩ := effect_stack_sp hret hcall s
  rw [effect_withStack hret hcall s k]
  refine ⟨rfl, fun j hj => ?_⟩
  rw [hstack]
  exact hlow j (hsp ▸ hj)

/-- STEP cannot tell apart states that differ in stale slots alone. -/
theorem indistinguishable_staleSlots : Indistinguishable SameButStaleSlots SameButStaleSlots where
  cycle h := by rw [h.1]; exact ⟨rfl, rfl, rfl⟩
  advance h := ⟨by rw [h.1]; rfl, h.2⟩
  latch r h := ⟨by rw [h.1]; rfl, h.2⟩
  check i h := by rw [h.1]; rfl
  effects i h := by
    by_cases hret : i = .ret
    · subst hret; exact h.effect_ret
    · by_cases hcall : ∃ nnn, i = .call nnn
      · obtain ⟨nnn, rfl⟩ := hcall; exact h.effect_call nnn
      · exact h.effect_other hret (not_exists.1 hcall)

/-- Settles O49: stale slots are indistinguishable, before a STEP and after it. -/
theorem staleStackSlotsAreUnobservable : Obligations.StaleStackSlotsAreUnobservable := by
  intro s s' hs
  exact ⟨fun _ => indistinguishable_staleSlots.step_next hs, fun _ _ => indistinguishable_staleSlots.step_fault hs,
    fun _ => indistinguishable_staleSlots.step_refused hs⟩

/-! ### The sound timer -/

/-- A skip does not depend on ST. -/
theorem State.skipIf_withSt (s : State) (b : Byte) (c : Bool) :
    State.skipIf { s with st := b } c = { s.skipIf c with st := b } := by
  cases c <;> rfl

/-- No instruction reads ST, and only FX18 writes it (spec R30). -/
theorem effect_withSt {i : Instr} (hld : ∀ x, i ≠ .ldStVx x) (s : State) (b : Byte) :
    effect i { s with st := b } = { effect i s with st := b } := by
  cases i
  case ldStVx x => exact absurd rfl (hld x)
  case ret =>
    by_cases hsp : s.sp.val = 0
    · rw [effect_ret_empty s hsp, effect_ret_empty { s with st := b } hsp]
    · rw [effect_ret_ok s hsp, effect_ret_ok { s with st := b } hsp]; rfl
  case call nnn =>
    by_cases hsp : s.sp.val < 16
    · rw [effect_call_ok s nnn hsp, effect_call_ok { s with st := b } nnn hsp]; rfl
    · rw [effect_call_full s nnn hsp, effect_call_full { s with st := b } nnn hsp]
  case seVxNn | sneVxNn | seVxVy | sneVxVy => exact State.skipIf_withSt ..
  case skp => rw [effect_skp, effect_skp]; exact State.skipIf_withSt ..
  case sknp => rw [effect_sknp, effect_sknp]; exact State.skipIf_withSt ..
  case ldVxK => simp only [effect]; split <;> rfl
  all_goals rfl

/-- STEP cannot tell apart states that differ in ST alone; after a FX18 ST is the same in both. -/
theorem indistinguishable_st (b : Byte) :
    Indistinguishable (fun s s' => s' = { s with st := b }) (fun t t' => ∃ c, t' = { t with st := c }) where
  cycle h := by subst h; exact ⟨rfl, rfl, rfl⟩
  advance h := by subst h; rfl
  latch r h := by subst h; rfl
  check i h := by subst h; rfl
  effects {s s'} i h := by
    subst h
    by_cases hld : ∃ x, i = .ldStVx x
    · obtain ⟨x, rfl⟩ := hld; exact ⟨s.getV x, rfl⟩
    · exact ⟨b, effect_withSt (not_exists.1 hld) s b⟩

/-- Settles O50: ST is indistinguishable; the state a fault leaves still holds the ST before it. -/
theorem soundTimerIsNotRead : Obligations.SoundTimerIsNotRead := by
  intro s b
  refine ⟨fun t ht => ?_, fun r t ht => ?_, fun r => (indistinguishable_st b).step_refused rfl⟩
  · obtain ⟨_, ht', c, rfl⟩ := (indistinguishable_st b).step_next rfl ht
    exact ⟨c, ht'⟩
  · obtain ⟨_, ht', rfl⟩ := (indistinguishable_st b).step_fault rfl ht
    exact ht'

end Sys2Proof.Machine
end

section
/-! The block's operations, a launch, and the ends of a run (spec R36-R44, R47, R260-R270). -/

namespace Sys2Proof.Machine

/-! ### RESET and the host's operations -/

/-- Settles O41: reset memory lists no cell, so it reads as FONT below 0x050 and zero above. -/
theorem resetBaseline : Obligations.ResetBaseline := by
  have font : ∀ a : Fin 80, State.reset.mem.read a.val = some Config.font[a] := fun a => by
    rw [Memory.read_eq, if_pos (by omega), Memory.byteAt_reset, Memory.resetByte, dif_pos a.isLt]
    rfl
  have zero : ∀ a : Nat, 0x050 ≤ a → a ≤ 0xFFF → State.reset.mem.read a = some 0 := fun a hlo hhi => by
    rw [Memory.read_eq, if_pos (by omega), Memory.byteAt_reset, Memory.resetByte, dif_neg (by omega)]
  exact ⟨fun s => ⟨_, _, rfl, rfl⟩, by decide, rfl, rfl, by decide, rfl, rfl, rfl, font, zero,
    blankScreen_pixel, by decide, rfl⟩

/-- Settles O52: a key after a key setting, a byte after a byte write, and the flat index of a cell. -/
theorem hostOperations : Obligations.HostOperations := by
  intro s
  refine ⟨fun k b => ⟨_, _, rfl, rfl, fun j => ?_⟩, fun a b => ⟨_, _, rfl, rfl, fun c => ?_⟩,
    hostRead s, rfl, rfl, rfl, fun px py k hk => ?_⟩
  · simp only [hostSetKey_keys, Fin.getElem_fin, Vector.getElem_set, Fin.ext_iff, eq_comm]
  · rw [hostWriteMem_mem]
    by_cases hc : c = a.val
    · rw [if_pos hc, Memory.read_eq, if_pos (by omega), Memory.byteAt_write, if_pos ⟨hc, a.isLt⟩]
    · rw [if_neg hc]
      exact Memory.read_congr (by rw [Memory.byteAt_write, if_neg (fun h => hc h.1)])
  · have hx : k.val % 64 = px.val := by omega
    have hy : k.val / 64 = py.val := by omega
    simp only [HostView.flatPixel, hx, hy]
    rfl

/-- An operation other than RESET and STEP leaves the fault latch as it was (spec R44). -/
theorem perform_fault {s t : State} {op : Op} {o : OpOutput} (hreset : op ≠ .reset) (hstep : op ≠ .step)
    (h : perform op s = some (t, o)) : t.fault = s.fault := by
  cases op with
  | reset => exact absurd rfl hreset
  | step => exact absurd rfl hstep
  | tick => obtain ⟨-, rfl, -⟩ := perform_tick h; rfl
  | setKey k b => cases h; rfl
  | read => cases h; rfl
  | writeMem a b => cases h; rfl

/-- STEP is not enabled on a halted core (spec R44). -/
theorem perform_step_halted {s : State} {r : FaultRecord} (h : s.fault = some r) : perform .step s = none := by
  simp only [perform, performStep, step_halted h]

/-- Settles O14: STEP and TICK are refused on a halted core, and only RESET clears the latch. -/
theorem haltedCoreLeavesOnlyByReset : Obligations.HaltedCoreLeavesOnlyByReset := by
  intro s r h
  have htick : tick s = .refused (.coreHalted r) := by simp only [tick, h]
  refine ⟨step_halted h, htick, perform_step_halted h, by simp only [perform, performTick, htick],
    ⟨_, _, rfl, rfl, rfl⟩, fun op t o ht => ?_⟩
  by_cases hreset : op = .reset
  · exact .inl hreset
  · have hstep : op ≠ .step := by
      rintro rfl
      rw [perform_step_halted h] at ht
      cases ht
    exact .inr ((perform_fault hreset hstep ht).trans h)

/-! ### The ROM load and a launch -/

/-- A key is as its last setting leaves it (spec R40). -/
theorem hostSetKeys_last {before after : List (Key × Bool)} {k : Key} {b : Bool} (h : ∀ c : Bool, (k, c) ∉ after)
    (s : State) : (hostSetKeys (before ++ (k, b) :: after) s).keys[k] = b := by
  rw [hostSetKeys_append, hostSetKeys, hostSetKeys_unnamed h]
  simp

/-- The state after RESET of a new machine with a ROM loaded (spec R262). -/
def romInReset (rom : List Byte) : State := State.reset.setMem (State.reset.mem.writeFrom 0x200 rom)

/-- A launch of a ROM that fits completes with the ROM loaded and the keys set (spec R262). -/
theorem launch_ok {rom : List Byte} (h : rom.length ≤ 3584) (presses : List (Key × Bool)) :
    launch rom presses = some (hostSetKeys presses (romInReset rom)) := by
  rw [launch, loadRom_ok h]
  rfl

/-- The load and the key settings of a launch are a run of the block's operations from RESET (spec R270). -/
theorem reachable_launch {rom : List Byte} (h : rom.length ≤ 3584) (presses : List (Key × Bool)) :
    Reachable (hostSetKeys presses (romInReset rom)) := by
  obtain ⟨load, hload⟩ := performAll_writeFrom rom 0x200 State.reset (by omega)
  obtain ⟨sets, hsets⟩ := performAll_setKeys presses (romInReset rom)
  refine ⟨load ++ sets, ?_⟩
  rw [performAll_append, hload]
  exact hsets

/-- A ROM that fits reads back from 0x200, and every address outside it as before the load (spec R42). -/
theorem read_rom {rom : List Byte} (h : rom.length ≤ 3584) (m : Memory) :
    (∀ (k : Nat) (hk : k < rom.length), (m.writeFrom 0x200 rom).read (0x200 + k) = some rom[k]) ∧
    ∀ a : Nat, a < 0x200 ∨ 0x200 + rom.length ≤ a → (m.writeFrom 0x200 rom).read a = m.read a :=
  ⟨fun _ hk => Memory.read_writeFrom_inside m hk (by omega), fun _ ha => Memory.read_writeFrom_outside m ha⟩

/-- No key is pressed in the state after RESET, with a ROM loaded or not (spec R47). -/
theorem romInReset_keys (rom : List Byte) (k : Key) : (romInReset rom).keys[k] = false := by
  simp [romInReset, State.reset]

/-- Settles O53: the load is one block write, and a launch is that load and the key settings, which leave all but the
keys as the load left it. -/
theorem romLoad : Obligations.RomLoad := by
  intro rom hlen
  obtain ⟨inside, outside⟩ := read_rom hlen State.reset.mem
  refine ⟨fun s => ⟨_, loadRom_ok hlen s, rfl, read_rom hlen s.mem⟩, fun presses => ?_⟩
  have hframe := hostSetKeys_frame presses (romInReset rom)
  have hmem : (hostSetKeys presses (romInReset rom)).mem = State.reset.mem.writeFrom 0x200 rom := by rw [hframe]; rfl
  refine ⟨_, launch_ok hlen presses, reachable_launch hlen presses, by rw [hframe]; rfl, by rw [hframe]; rfl,
    by rw [hmem]; exact inside, by rw [hmem]; exact outside,
    fun k => ⟨fun hk => ?_, fun before after b hsplit hafter => ?_⟩⟩
  · exact (hostSetKeys_unnamed hk _).trans (romInReset_keys rom k)
  · rw [hsplit]
    exact hostSetKeys_last hafter _

/-! ### The spin end -/

/-- A jump decodes from its own word (spec R76). -/
theorem decodeWord_encode_jp (nnn : Addr) : decodeWord (encode (.jp nnn)) = some (.jp nnn) := by
  have hn := nnn.isLt
  have hw : (encode (.jp nnn)).toNat = 0x1000 + nnn.toNat := by
    simp only [encode, BitVec.toNat_ofNat]
    omega
  have hnibble : (nibbleAt (encode (.jp nnn)) 12).val = 1 := by
    simp only [nibbleAt, hw]
    omega
  have hfield : fieldNNN (encode (.jp nnn)) = nnn := by
    apply BitVec.eq_of_toNat_eq
    simp only [fieldNNN, hw, BitVec.toNat_ofNat]
    omega
  simp only [decodeWord, hnibble, hfield]

/-- A STEP at a spin end leaves the whole state as it was (spec R268). -/
theorem SpinEnd.step_eq {s : State} (h : SpinEnd s) : step s = .next s := by
  obtain ⟨hf, nnn, hw, hpc⟩ := h
  have hback : zext16 nnn = s.pc := BitVec.eq_of_toNat_eq ((zext16_toNat nnn).trans hpc)
  rw [step_eq_exec hf hw (decodeWord_encode_jp nnn), exec_of_faultOf_none rfl]
  simp only [effect, hback]
  rfl

/-- A spin end lies in the latch, PC and memory alone, so timers and keys do not end it (spec R268). -/
theorem SpinEnd.congr {s : State} (h : SpinEnd s) (dt st : Byte) (keys : Vector Bool 16) :
    SpinEnd { s with dt := dt, st := st, keys := keys } := h

/-- Every operation but RESET and HOST_WRITE_MEM is enabled at a spin end and leads to a spin end, where only the timers
and the keys may differ (spec R268). -/
theorem SpinEnd.perform_stays {s : State} (h : SpinEnd s) {op : Op} (hreset : op ≠ .reset)
    (hwrite : ∀ a b, op ≠ .writeMem a b) :
    ∃ dt st keys o, perform op s = some ({ s with dt := dt, st := st, keys := keys }, o) := by
  cases op with
  | reset => exact absurd rfl hreset
  | step => exact ⟨_, _, _, _, perform_step_next h.step_eq⟩
  | tick => exact ⟨_, _, _, _, perform_tick_ok h.1⟩
  | setKey k b => exact ⟨_, _, _, _, rfl⟩
  | read => exact ⟨_, _, _, _, rfl⟩
  | writeMem a b => exact absurd rfl (hwrite a b)

/-- Every run of such operations goes through and ends at a spin end, where only the timers and the keys may differ. -/
theorem SpinEnd.performAll_stays {s : State} (h : SpinEnd s) {ops : List Op} (hreset : Op.reset ∉ ops)
    (hwrite : ∀ a b, Op.writeMem a b ∉ ops) :
    ∃ dt st keys, performAll ops s = some { s with dt := dt, st := st, keys := keys } := by
  induction ops generalizing s with
  | nil => exact ⟨_, _, _, rfl⟩
  | cons op ops ih =>
    obtain ⟨hop, hops⟩ := not_or.1 (mt List.mem_cons.2 hreset)
    obtain ⟨dt, st, keys, o, hone⟩ := h.perform_stays (Ne.symm hop) fun a b e => hwrite a b (e ▸ List.mem_cons_self)
    obtain ⟨dt', st', keys', hrest⟩ := ih (h.congr dt st keys) hops fun a b e => hwrite a b (List.mem_cons_of_mem _ e)
    exact ⟨dt', st', keys', by rw [performAll_cons, hone]; exact hrest⟩

/-! ### The fuel end and the faulted state -/

/-- A run of STEPs is its first STEP and then the rest. -/
theorem stepsOnly_succ {k : Nat} {s t : State} (h : StepsOnly (k + 1) s t) :
    ∃ u, step s = .next u ∧ StepsOnly k u t := by
  simp only [StepsOnly, Host.Core.run] at h
  split at h
  · rename_i u hu
    exact ⟨u, hu, h⟩
  · cases h
  · cases h

/-- STEPs that complete leave no fault latched (spec R44). -/
theorem StepsOnly.fault_eq_none {k : Nat} {s t : State} (h : StepsOnly k s t) (hf : s.fault = none) : t.fault = none := by
  induction k generalizing s with
  | zero => cases h; exact hf
  | succ k ih =>
    obtain ⟨u, hu, h⟩ := stepsOnly_succ h
    exact ih h (step_next_fault hu)

/-- STEPs that complete, another operation and STEPs again are a fuel end of all the STEPs (spec R268). -/
theorem FuelEnd.of_steps {j k : Nat} {s t u v : State} {op : Op} {o : OpOutput} (hs : ¬ Faulted s) (hstep : op ≠ .step)
    (hreset : op ≠ .reset) (hj : StepsOnly j s u) (hop : perform op u = some (v, o)) (hk : StepsOnly k v t) :
    FuelEnd (j + k) s t := by
  have hu : u.fault = none := hj.fault_eq_none (not_not.1 hs)
  have hv : v.fault = none := (perform_fault hreset hstep hop).trans hu
  refine ⟨List.replicate j .step ++ op :: List.replicate k .step, ?_, ?_, ?_, not_not.2 (hk.fault_eq_none hv)⟩
  · simp [List.count_cons_of_ne hstep]
  · simp [List.mem_replicate, Ne.symm hreset]
  · rw [performAll_append, performAll_steps hj, Option.bind_some, performAll_cons, hop]
    exact performAll_steps hk

/-- From a faulted state a run without RESET ends faulted (spec R44). -/
theorem Faulted.performAll_stays {s t : State} (hs : Faulted s) {ops : List Op} (hreset : Op.reset ∉ ops)
    (h : performAll ops s = some t) : Faulted t ∧ ops.count .step = 0 := by
  obtain ⟨r, hr⟩ := Option.ne_none_iff_exists'.1 hs
  induction ops generalizing s with
  | nil => cases h; exact ⟨hs, rfl⟩
  | cons op ops ih =>
    obtain ⟨hop, hops⟩ := not_or.1 (mt List.mem_cons.2 hreset)
    rw [performAll_cons] at h
    obtain ⟨⟨u, o⟩, hu, h⟩ := Option.bind_eq_some_iff.1 h
    have hstep : op ≠ .step := by
      rintro rfl
      rw [perform_step_halted hr] at hu
      cases hu
    have hur : u.fault = some r := (perform_fault (Ne.symm hop) hstep hu).trans hr
    obtain ⟨ht, hcount⟩ := ih (by simp [Faulted, hur]) hops h hur
    exact ⟨ht, by rw [List.count_cons_of_ne hstep, hcount]⟩

/-- A faulted state is no fuel end, and none is reached from it (spec R44, R236). -/
theorem Faulted.not_fuelEnd {s t : State} (hs : Faulted s) (k : Nat) : ¬ FuelEnd k s t := by
  rintro ⟨ops, -, hreset, h, ht⟩
  exact ht (hs.performAll_stays hreset h).1

/-- Settles O55: the spin end, the fuel end and the faulted state, each by its own lemma. -/
theorem endsOfARun : Obligations.EndsOfARun := by
  intro s ops hreset
  refine ⟨fun hspin hwrite => ?_, fun _ _ _ _ _ _ _ => FuelEnd.of_steps,
    fun hf => ⟨fun _ => hf.performAll_stays hreset, fun k _ => hf.not_fuelEnd k⟩, fun _ _ _ hfault hend => ?_⟩
  · obtain ⟨dt, st, keys, hrun⟩ := hspin.performAll_stays hreset hwrite
    have hend := hspin.congr dt st keys
    exact ⟨_, hrun, hend, rfl, ops, rfl, hreset, hrun, hend.not_faulted⟩
  · exact hend.not_faulted (by simp [Faulted, step_fault_latched hfault])

end Sys2Proof.Machine
end

section
/-! The decoder on encoded words: the fields of a word by its format, the round trip of every instruction's word, and the
byte decoder on top of it. -/

namespace Sys2Proof

/-! ### The fields of an encoded word, by format (spec R10, R74)

`b` is the row's pattern: its bits outside the format's operands. -/

/-- Format NNN. -/
theorem fields_nnn {b : Nat} (hb : b < 65536) (hz : b % 4096 = 0) (nnn : Addr) :
    (nibbleAt (BitVec.ofNat 16 (b + nnn.toNat)) 12).val = b / 4096 ∧
    fieldNNN (BitVec.ofNat 16 (b + nnn.toNat)) = nnn := by
  have hn := nnn.isLt
  refine ⟨?_, BitVec.eq_of_toNat_eq ?_⟩ <;> simp only [nibbleAt, fieldNNN, BitVec.toNat_ofNat] <;> omega

/-- Format XNN. -/
theorem fields_xnn {b : Nat} (hb : b < 65536) (hz : b % 4096 = 0) (x : Reg) (nn : Byte) :
    (nibbleAt (BitVec.ofNat 16 (b + x.val * 0x100 + nn.toNat)) 12).val = b / 4096 ∧
    fieldX (BitVec.ofNat 16 (b + x.val * 0x100 + nn.toNat)) = x ∧
    fieldNN (BitVec.ofNat 16 (b + x.val * 0x100 + nn.toNat)) = nn := by
  have hn := nn.isLt
  refine ⟨?_, Fin.ext ?_, BitVec.eq_of_toNat_eq ?_⟩ <;>
    simp only [nibbleAt, fieldX, fieldNN, BitVec.toNat_ofNat] <;> omega

/-- Format XYN. -/
theorem fields_xyn {b : Nat} (hb : b < 65536) (hz : b % 4096 = 0) (x y n : Fin 16) :
    (nibbleAt (BitVec.ofNat 16 (b + x.val * 0x100 + y.val * 0x10 + n.val)) 12).val = b / 4096 ∧
    fieldX (BitVec.ofNat 16 (b + x.val * 0x100 + y.val * 0x10 + n.val)) = x ∧
    fieldY (BitVec.ofNat 16 (b + x.val * 0x100 + y.val * 0x10 + n.val)) = y ∧
    fieldN (BitVec.ofNat 16 (b + x.val * 0x100 + y.val * 0x10 + n.val)) = n := by
  refine ⟨?_, Fin.ext ?_, Fin.ext ?_, Fin.ext ?_⟩ <;>
    simp only [nibbleAt, fieldX, fieldY, fieldN, BitVec.toNat_ofNat] <;> omega

/-- Format XY: the last nibble is the pattern's. -/
theorem fields_xy {b : Nat} (hb : b < 65536) (hz : b % 4096 < 16) (x y : Reg) :
    (nibbleAt (BitVec.ofNat 16 (b + x.val * 0x100 + y.val * 0x10)) 12).val = b / 4096 ∧
    fieldX (BitVec.ofNat 16 (b + x.val * 0x100 + y.val * 0x10)) = x ∧
    fieldY (BitVec.ofNat 16 (b + x.val * 0x100 + y.val * 0x10)) = y ∧
    (fieldN (BitVec.ofNat 16 (b + x.val * 0x100 + y.val * 0x10))).val = b % 16 := by
  refine ⟨?_, Fin.ext ?_, Fin.ext ?_, ?_⟩ <;>
    simp only [nibbleAt, fieldX, fieldY, fieldN, BitVec.toNat_ofNat] <;> omega

/-- Format X: the low byte is the pattern's. -/
theorem fields_x {b : Nat} (hb : b < 65536) (hz : b % 4096 < 256) (x : Reg) :
    (nibbleAt (BitVec.ofNat 16 (b + x.val * 0x100)) 12).val = b / 4096 ∧
    fieldX (BitVec.ofNat 16 (b + x.val * 0x100)) = x ∧
    (fieldNN (BitVec.ofNat 16 (b + x.val * 0x100))).toNat = b % 256 := by
  refine ⟨?_, Fin.ext ?_, ?_⟩ <;> simp only [nibbleAt, fieldX, fieldNN, BitVec.toNat_ofNat] <;> omega

/-! ### Words and bytes -/

/-- Every instruction decodes from its own word (spec R74, R76): the pattern selects the row and the format's fields
give the operands back. -/
theorem decodeWord_encode (i : Instr) : decodeWord (encode i) = some i := by
  cases i with
  | nop | cls | ret => rfl
  | jp | call | ldINnn | jpV0 => simp [encode, decodeWord, fields_nnn]
  | seVxNn | sneVxNn | ldVxNn | addVxNn | rnd => simp [encode, decodeWord, fields_xnn]
  | seVxVy | sneVxVy => simp [encode, decodeWord, fields_xy]
  | ldVxVy | orVxVy | andVxVy | xorVxVy | addVxVy | sub | shr | subn | shl =>
    simp [encode, decodeWord, decodeAlu, fields_xy]
  | drw => simp [encode, decodeWord, fields_xyn]
  | skp | sknp => simp [encode, decodeWord, decodeKey, fields_x]
  | ldVxDt | ldVxK | ldDtVx | ldStVx | addIVx | ldFVx | ldBVx | ldMemVx | ldVxMem =>
    simp [encode, decodeWord, decodeMisc, fields_x]

/-- The byte decoder on a word's two bytes answers what the word decoder does, and keeps the bytes after them
(spec R54, R73). -/
theorem decode_bytesOfWord (w : Word) (rest : List Byte) :
    decode (bytesOfWord w ++ rest) =
      (decodeWord w).elim (.error (.unimplementedOpcode w)) (fun i => .ok (i, rest)) := by
  simp only [bytesOfWord, List.cons_append, List.nil_append, decode, wordOfBytes_bytesOfWord]
  cases decodeWord w <;> rfl

/-- Settles O7, by the word decoder on the two bytes and the round trip of an instruction's word. -/
theorem decodeReadsTwoBytes : Obligations.DecodeReadsTwoBytes := by
  refine ⟨fun i rest => ?_, fun w rest hw => ?_, fun _ => rfl⟩
  · rw [decode_bytesOfWord, decodeWord_encode, Option.elim_some]
  · rw [decode_bytesOfWord, hw, Option.elim_none]

end Sys2Proof
end

section
/-! What FX55 stores, as memory reads and the next fetch see it. -/

namespace Sys2Proof.Machine

/-- FX55's block reads back register by register: V[k] at I + k (spec R165). -/
theorem read_writeFrom_regsUpTo (s : State) (x : Reg) {k : Nat} (hk : k < x.val + 1) (h : dataAddress s + k < 4096) :
    (s.mem.writeFrom (dataAddress s) (s.regsUpTo x)).read (dataAddress s + k) = some (s.getV ⟨k, by omega⟩) := by
  rw [Memory.read_writeFrom_inside s.mem (by rwa [State.regsUpTo_length]) h, State.regsUpTo_getElem s x k hk]

/-- The fetched word is that of the bytes read at PC and PC + 1 (spec R54, R71). -/
theorem fetchWord_of_read {s : State} {hi lo : Byte} (hhi : s.mem.read s.pc.toNat = some hi)
    (hlo : s.mem.read (s.pc.toNat + 1) = some lo) : fetchWord s = some (wordOfBytes hi lo) := by
  simp only [fetchWord, hhi, hlo]

/-- Settles O47: FX55 of V[0] and V[1] stores them at PC and PC + 1, and PC stays, so the next fetch reads them. -/
theorem storeIsSeenByNextFetch : Obligations.StoreIsSeenByNextFetch := by
  intro s hi hpc
  have haddr : dataAddress s = s.pc.toNat := congrArg BitVec.toNat hi
  have hread (k : Nat) (hk : k < 2) := read_writeFrom_regsUpTo s 1 hk (by omega)
  rw [haddr] at hread
  refine ⟨_, _, exec_ldMemVx_ok s 1 ?_, fetchWord_of_read (hi := s.getV 0) (lo := s.getV 1) ?_ ?_, wordOfBytes_toNat _ _⟩
  · simpa [haddr] using hpc
  · simpa [haddr] using hread 0 (by decide)
  · simpa [haddr] using hread 1 (by decide)

end Sys2Proof.Machine
end

section
/-! The decoder on every word: the fields as arithmetic, a word put together again from its fields, the words the decoder
refuses, and its agreement with the opcode table. -/

namespace Sys2Proof

/-! ### The fields a word is told apart by (spec R10, R76) -/

/-- n1, the family selector. -/
theorem nibbleAt_twelve_val (w : Word) : (nibbleAt w 12).val = w.toNat / 4096 := by
  have hw := w.isLt
  simp only [nibbleAt]
  omega

/-- The families, grouped as the decoder treats them: 0 by the whole word, then the formats NNN and XNN, the skips of
format XY, the ALU family, the draw, and the families E and F told apart by NN. -/
theorem family_cases (w : Word) :
    w.toNat / 4096 = 0 ∨
    (w.toNat / 4096 = 1 ∨ w.toNat / 4096 = 2 ∨ w.toNat / 4096 = 10 ∨ w.toNat / 4096 = 11) ∨
    (w.toNat / 4096 = 3 ∨ w.toNat / 4096 = 4 ∨ w.toNat / 4096 = 6 ∨ w.toNat / 4096 = 7 ∨ w.toNat / 4096 = 12) ∨
    (w.toNat / 4096 = 5 ∨ w.toNat / 4096 = 9) ∨
    w.toNat / 4096 = 8 ∨ w.toNat / 4096 = 13 ∨ w.toNat / 4096 = 14 ∨ w.toNat / 4096 = 15 := by
  have hw := w.isLt
  omega

/-- N, the last nibble. -/
theorem fieldN_val (w : Word) : (fieldN w).val = w.toNat % 16 := by
  simp only [fieldN, nibbleAt, Nat.pow_zero, Nat.div_one]

/-- NN, the low byte. -/
theorem fieldNN_toNat (w : Word) : (fieldNN w).toNat = w.toNat % 256 := by
  simp only [fieldNN, BitVec.toNat_ofNat, Nat.reducePow]

/-! ### A word is its fixed bits and its fields, by format (spec R74)

`b` is the row's pattern, given as what the row's mask keeps of the word. -/

/-- Format NNN. -/
theorem ofNat_fields_nnn {b : Nat} {w : Word} (hb : w.toNat / 4096 * 4096 = b) :
    BitVec.ofNat 16 (b + (fieldNNN w).toNat) = w := by
  apply BitVec.eq_of_toNat_eq
  simp only [fieldNNN, BitVec.toNat_ofNat]
  omega

/-- Format XNN. -/
theorem ofNat_fields_xnn {b : Nat} {w : Word} (hb : w.toNat / 4096 * 4096 = b) :
    BitVec.ofNat 16 (b + (fieldX w).val * 0x100 + (fieldNN w).toNat) = w := by
  apply BitVec.eq_of_toNat_eq
  simp only [fieldX, fieldNN, nibbleAt, BitVec.toNat_ofNat]
  omega

/-- Format XYN. -/
theorem ofNat_fields_xyn {b : Nat} {w : Word} (hb : w.toNat / 4096 * 4096 = b) :
    BitVec.ofNat 16 (b + (fieldX w).val * 0x100 + (fieldY w).val * 0x10 + (fieldN w).val) = w := by
  apply BitVec.eq_of_toNat_eq
  simp only [fieldX, fieldY, fieldN, nibbleAt, BitVec.toNat_ofNat]
  omega

/-- Format XY. -/
theorem ofNat_fields_xy {b : Nat} {w : Word} (hb : w.toNat / 4096 * 4096 + w.toNat % 16 = b) :
    BitVec.ofNat 16 (b + (fieldX w).val * 0x100 + (fieldY w).val * 0x10) = w := by
  apply BitVec.eq_of_toNat_eq
  simp only [fieldX, fieldY, nibbleAt, BitVec.toNat_ofNat]
  omega

/-- Format X. -/
theorem ofNat_fields_x {b : Nat} {w : Word} (hb : w.toNat / 4096 * 4096 + w.toNat % 256 = b) :
    BitVec.ofNat 16 (b + (fieldX w).val * 0x100) = w := by
  apply BitVec.eq_of_toNat_eq
  simp only [fieldX, nibbleAt, BitVec.toNat_ofNat]
  omega

/-! ### A word that decodes is the word of what it decodes to, by family -/

/-- Family 0. -/
theorem encode_of_decodeSystem {w : Word} {i : Instr} (h : decodeSystem w = some i) : encode i = w := by
  unfold decodeSystem at h
  split at h <;> cases h <;> rename_i hw <;> exact BitVec.eq_of_toNat_eq hw.symm

/-- Family 8. -/
theorem encode_of_decodeAlu {w : Word} {i : Instr} (hw : w.toNat / 4096 = 8) (h : decodeAlu w = some i) :
    encode i = w := by
  simp only [decodeAlu, fieldN_val] at h
  split at h <;> cases h <;> exact ofNat_fields_xy (by omega)

/-- Family E. -/
theorem encode_of_decodeKey {w : Word} {i : Instr} (hw : w.toNat / 4096 = 14) (h : decodeKey w = some i) :
    encode i = w := by
  simp only [decodeKey, fieldNN_toNat] at h
  split at h <;> cases h <;> exact ofNat_fields_x (by omega)

/-- Family F. -/
theorem encode_of_decodeMisc {w : Word} {i : Instr} (hw : w.toNat / 4096 = 15) (h : decodeMisc w = some i) :
    encode i = w := by
  simp only [decodeMisc, fieldNN_toNat] at h
  split at h <;> cases h <;> exact ofNat_fields_x (by omega)

/-- A word that decodes is the word of what it decodes to (spec R74, R76). -/
theorem encode_of_decodeWord {w : Word} {i : Instr} (h : decodeWord w = some i) : encode i = w := by
  simp only [decodeWord, nibbleAt_twelve_val, fieldN_val] at h
  obtain hn | hn | hn | hn | hn | hn | hn | hn := family_cases w
  · simp only [hn] at h
    exact encode_of_decodeSystem h
  · obtain hn | hn | hn | hn := hn <;> simp only [hn] at h <;> cases h <;> exact ofNat_fields_nnn (by omega)
  · obtain hn | hn | hn | hn | hn := hn <;> simp only [hn] at h <;> cases h <;> exact ofNat_fields_xnn (by omega)
  · obtain hn | hn := hn <;> simp only [hn] at h
    all_goals
      obtain ⟨hN, h⟩ := Option.ite_none_right_eq_some.1 h
      cases h
      exact ofNat_fields_xy (by omega)
  · simp only [hn] at h
    exact encode_of_decodeAlu hn h
  · simp only [hn] at h
    cases h
    exact ofNat_fields_xyn (by omega)
  · simp only [hn] at h
    exact encode_of_decodeKey hn h
  · simp only [hn] at h
    exact encode_of_decodeMisc hn h

/-- Settles O1, by the round trip of every instruction's word. -/
theorem encodeThenDecode : Obligations.EncodeThenDecode := decodeWord_encode

/-- Settles O2, by the family of the word: its fixed bits and its fields make the word again, the shifts' Y included. -/
theorem decodeThenEncode : Obligations.DecodeThenEncode := fun _ _ => encode_of_decodeWord

/-! ### The words the decoder refuses, by family (spec R78) -/

/-- Family 0. -/
theorem decodeSystem_eq_none_iff (w : Word) :
    decodeSystem w = none ↔ w.toNat ≠ 0x0000 ∧ w.toNat ≠ 0x00E0 ∧ w.toNat ≠ 0x00EE := by
  unfold decodeSystem
  split <;> simp_all

/-- Family 8. -/
theorem decodeAlu_eq_none_iff (w : Word) :
    decodeAlu w = none ↔ w.toNat % 16 ∈ [0x8, 0x9, 0xA, 0xB, 0xC, 0xD, 0xF] := by
  have hlt : w.toNat % 16 < 16 := Nat.mod_lt _ (by decide)
  simp only [decodeAlu, fieldN_val]
  interval_cases w.toNat % 16 <;> simp

/-- Family E. -/
theorem decodeKey_eq_none_iff (w : Word) : decodeKey w = none ↔ w.toNat % 256 ∉ [0x9E, 0xA1] := by
  simp only [decodeKey, fieldNN_toNat]
  split <;> simp_all

/-- Family F. -/
theorem decodeMisc_eq_none_iff (w : Word) :
    decodeMisc w = none ↔ w.toNat % 256 ∉ [0x07, 0x0A, 0x15, 0x18, 0x1E, 0x29, 0x33, 0x55, 0x65] := by
  simp only [decodeMisc, fieldNN_toNat]
  split <;> simp_all

/-- Settles O5, family by family: each list of R78 is what its family's decoder refuses. -/
theorem unimplementedWordsAreThoseListed : Obligations.UnimplementedWordsAreThoseListed := by
  intro w
  have hzero : w.toNat ≤ 0x0FFF ↔ w.toNat / 4096 = 0 := by omega
  simp only [decodeWord, nibbleAt_twelve_val, fieldN_val, hzero]
  obtain hn | hn | hn | hn | hn | hn | hn | hn := family_cases w
  · simp [hn, decodeSystem_eq_none_iff]
  · obtain hn | hn | hn | hn := hn <;> simp [hn]
  · obtain hn | hn | hn | hn | hn := hn <;> simp [hn]
  · obtain hn | hn := hn <;> simp [hn]
  · simp [hn, decodeAlu_eq_none_iff]
  · simp [hn]
  · simp [hn, decodeKey_eq_none_iff]
  · simp [hn, decodeMisc_eq_none_iff]

/-! ### The decoder and the opcode table (spec R76, R77, R83) -/

/-- The fields the decoder tells `w` apart by are those of `p`: n1 and, by n1's family, the whole word, N or NN. -/
structure SameSelectors (w p : Word) : Prop where
  /-- n1 is the same. -/
  family : w.toNat / 4096 = p.toNat / 4096
  /-- In family 0 the whole word selects. -/
  system : p.toNat / 4096 = 0 → w = p
  /-- In families 5, 8 and 9 N selects. -/
  byN : p.toNat / 4096 = 5 ∨ p.toNat / 4096 = 8 ∨ p.toNat / 4096 = 9 → w.toNat % 16 = p.toNat % 16
  /-- In families E and F NN selects. -/
  byNN : p.toNat / 4096 = 14 ∨ p.toNat / 4096 = 15 → w.toNat % 256 = p.toNat % 256

/-- Words with the same selecting fields decode to instructions of one row, or both to none. -/
theorem SameSelectors.decodeWord_mnemonic {w p : Word} (h : SameSelectors w p) :
    (decodeWord w).map Instr.mnemonic = (decodeWord p).map Instr.mnemonic := by
  obtain ⟨hfam, hsys, hN, hNN⟩ := h
  simp only [decodeWord, nibbleAt_twelve_val, fieldN_val, hfam]
  obtain hn | hn | hn | hn | hn | hn | hn | hn := family_cases p
  · rw [hsys hn]
  · obtain hn | hn | hn | hn := hn <;> simp only [hn] <;> rfl
  · obtain hn | hn | hn | hn | hn := hn <;> simp only [hn] <;> rfl
  · have hNw := hN (by omega)
    obtain hn | hn := hn <;> simp only [hn, hNw] <;> split <;> rfl
  · simp only [hn, decodeAlu, fieldN_val, hN (by omega)]
    split <;> rfl
  · simp only [hn]
    rfl
  · simp only [hn, decodeKey, fieldNN_toNat, hNN (by omega)]
    split <;> rfl
  · simp only [hn, decodeMisc, fieldNN_toNat, hNN (by omega)]
    split <;> rfl

/-- Each row fixes the fields its family is told apart by: the four masks of the table, and the families each is used in. -/
theorem opcodeTable_mask : ∀ r ∈ opcodeTable,
    r.mask = 0xFFFF ∨ (r.mask = 0xF0FF ∧ r.pattern.toNat / 4096 ∈ [14, 15]) ∨
    (r.mask = 0xF00F ∧ r.pattern.toNat / 4096 ∈ [5, 8, 9]) ∨
    (r.mask = 0xF000 ∧ r.pattern.toNat % 4096 = 0 ∧ r.pattern.toNat / 4096 ∉ [0, 5, 8, 9, 14, 15]) := by
  decide

/-- A word a row covers has the selecting fields of the row's pattern. -/
theorem sameSelectors_of_covers {r : OpcodeRow} {w : Word} (hr : r ∈ opcodeTable) (h : r.covers w = true) :
    SameSelectors w r.pattern := by
  have hmask := opcodeTable_mask r hr
  obtain ⟨name, mask, p⟩ := r
  change SameSelectors w p
  simp only [List.mem_cons, List.not_mem_nil, or_false, not_or] at hmask
  obtain rfl | ⟨rfl, hfam⟩ | ⟨rfl, hfam⟩ | ⟨rfl, hlow, hfam⟩ := hmask
  · obtain rfl := (covers_FFFF _ _ _).1 h
    exact ⟨rfl, fun _ => rfl, fun _ => rfl, fun _ => rfl⟩
  · have h := (covers_F0FF _ _ _).1 h
    constructor <;> omega
  · have h := (covers_F00F _ _ _).1 h
    constructor <;> omega
  · have h := (covers_F000 _ _ _).1 h
    constructor <;> omega

/-- A row's pattern, its operands zero, decodes to the row's instruction. -/
theorem decodeWord_pattern : ∀ r ∈ opcodeTable, (decodeWord r.pattern).map Instr.mnemonic = some r.mnemonic := by
  decide

/-- A word a row covers decodes to the row's instruction. -/
theorem decodeWord_of_covers {r : OpcodeRow} {w : Word} (hr : r ∈ opcodeTable) (h : r.covers w = true) :
    (decodeWord w).map Instr.mnemonic = some r.mnemonic :=
  (sameSelectors_of_covers hr h).decodeWord_mnemonic.trans (decodeWord_pattern r hr)

open Laws.EncodesItsRow in
/-- Every instruction's word lies in its own row (spec R74, R83). -/
theorem encodesItsRow (i : Instr) : Statement i := by
  cases i
  exacts [nop, cls, ret, jp _, call _, seVxNn _ _, sneVxNn _ _, seVxVy _ _, ldVxNn _ _, addVxNn _ _, ldVxVy _ _,
    orVxVy _ _, andVxVy _ _, xorVxVy _ _, addVxVy _ _, sub _ _, shr _ _, subn _ _, shl _ _, sneVxVy _ _, ldINnn _,
    jpV0 _, rnd _ _, drw _ _ _, skp _, sknp _, ldVxDt _, ldVxK _, ldDtVx _, ldStVx _, addIVx _, ldFVx _, ldBVx _,
    ldMemVx _, ldVxMem _]

/-- A word that decodes is covered by the row of what it decodes to. -/
theorem covers_of_decodeWord {w : Word} {i : Instr} (h : decodeWord w = some i) :
    ∃ r ∈ opcodeTable, r.covers w = true ∧ r.mnemonic = i.mnemonic := by
  obtain ⟨r, hr, hname, hcov⟩ := encodesItsRow i
  exact ⟨r, hr, encode_of_decodeWord h ▸ hcov, hname⟩

/-- Settles O3: what decodes is the word of an instruction, which lies in its row, and what a row covers decodes as the
row's pattern does. -/
theorem decoderAcceptsExactlyTheTable : Obligations.DecoderAcceptsExactlyTheTable := by
  refine ⟨fun w => Bool.eq_iff_iff.2 ⟨fun h => ?_, fun h => ?_⟩, fun w i => covers_of_decodeWord⟩
  · obtain ⟨i, hi⟩ := Option.isSome_iff_exists.1 h
    obtain ⟨r, hr, hcov, -⟩ := covers_of_decodeWord hi
    exact List.any_eq_true.2 ⟨r, hr, hcov⟩
  · obtain ⟨r, hr, hcov⟩ := List.any_eq_true.1 h
    obtain ⟨i, hi, -⟩ := Option.map_eq_some_iff.1 (decodeWord_of_covers hr hcov)
    exact Option.isSome_iff_exists.2 ⟨i, hi⟩

/-- No two rows carry one mnemonic. -/
theorem opcodeTable_mnemonic_nodup : (opcodeTable.map OpcodeRow.mnemonic).Nodup := by decide

/-- Settles O4: the decoder gives a word one instruction, whose mnemonic is that of every row that covers the word, and no
two rows carry one mnemonic. -/
theorem patternsAreDisjoint : Obligations.PatternsAreDisjoint := by
  refine ⟨rfl, fun w r q hr hq hrw hqw => ?_, fun w r hr hrw => Option.map_eq_some_iff.1 (decodeWord_of_covers hr hrw)⟩
  have hname : r.mnemonic = q.mnemonic :=
    Option.some.inj ((decodeWord_of_covers hr hrw).symm.trans (decodeWord_of_covers hq hqw))
  exact List.inj_on_of_nodup_map opcodeTable_mnemonic_nodup hr hq hname

/-- Settles O6, by evaluating the decoder. -/
theorem workedWordsDecode : Obligations.WorkedWordsDecode :=
  ⟨rfl, rfl, rfl, rfl, rfl, rfl, rfl, rfl, rfl, rfl, rfl, rfl⟩

end Sys2Proof
end

section
/-! The fetch and decode stages of STEP, as the state sees them (spec R70-R72, R76). -/

namespace Sys2Proof.Machine

/-- Settles O8, by the word of the two bytes read and STEP at an instruction. -/
theorem stepRunsTheDecodedInstruction : Obligations.StepRunsTheDecodedInstruction :=
  fun _ _ _ _ hf hhi hlo hi => step_eq_exec hf (fetchWord_of_read hhi hlo) hi

/-- Settles O9: fetch reads both bytes inside memory, and past its end STEP raises the fetch fault. -/
theorem fetchRule : Obligations.FetchRule := by
  refine fun s => ⟨fun hf hpc => ⟨_, rfl, step_fetch_none hf (fetchWord_none s hpc)⟩, fun hpc => ?_⟩
  have hread : s.mem.read s.pc.toNat = some (s.mem.byteAt s.pc.toNat) := if_pos (by omega)
  exact ⟨_, _, _, fetchWord_ok s hpc, hread, if_pos hpc, wordOfBytes_toNat _ _⟩

/-- Settles O10, by STEP at an unimplemented word; the advanced PC less two is the address the word was at. -/
theorem unimplementedWordFaults : Obligations.UnimplementedWordFaults := by
  intro s w hf hw hi
  have haddr : s.advance.pc - 2 = s.pc := BitVec.add_sub_cancel _ _
  refine ⟨_, rfl, ?_⟩
  rw [step_decode_none hf hw hi, raiseUnimplemented_eq, haddr]
  rfl

end Sys2Proof.Machine
end

section
/-! Control transfer (spec 41_control.md): the no-op, the jumps, CALL and RET, and the register skips. -/

namespace Sys2Proof.Machine

/-- An instruction that raises a fault of its own halts with it (spec R232, R234). -/
theorem haltsWith_of_exec_eq_raise {i : Instr} {s : State} {c : FaultCause} (h : exec i s = raise i c s) :
    HaltsWith i s c :=
  ⟨_, rfl, rfl, rfl, h⟩

/-- An instruction that only sets PC moves it to the target's value. -/
theorem movesPc_of_exec_eq_setPc {i : Instr} {s : State} {w : Word} {target : Nat}
    (h : exec i s = .next (s.setPc w)) (hw : w.toNat = target) : MovesPc i s target :=
  ⟨_, h, rfl, hw, fun _ => rfl⟩

/-- An instruction whose meaning is `skipIf` skips exactly when the condition it decides holds (spec R82). -/
theorem skipsWhen_of_exec_eq_skipIf {i : Instr} {s : State} {b : Bool} {cond : Prop}
    (h : exec i s = .next (s.skipIf b)) (hb : b = true ↔ cond) : SkipsWhen i s cond := by
  refine ⟨_, h, State.skipIf_eq s b, fun hc => ?_, fun hc => ?_, fun a => by rw [State.skipIf_mem]⟩
  · rw [State.skipIf_pc, if_pos (hb.2 hc)]
  · rw [State.skipIf_pc, if_neg (mt hb.1 hc)]

/-- Settles O15: 0000 is the identity, and both jumps set PC alone, BNNN to a sum that PC holds exactly. -/
theorem noOpAndJumps : Obligations.NoOpAndJumps := fun s nnn =>
  ⟨⟨decodeWord_encode .nop, rfl⟩,
   ⟨decodeWord_encode (.jp nnn), movesPc_of_exec_eq_setPc rfl (zext16_toNat nnn)⟩,
   ⟨decodeWord_encode (.jpV0 nnn), movesPc_of_exec_eq_setPc rfl (indexedTarget_toNat s nnn)⟩⟩

/-- Settles O16, by CALL's two equations: on a stack that is not full it writes slot SP alone, and a full one faults. -/
theorem callPushesReturnAddress : Obligations.CallPushesReturnAddress := by
  refine fun s nnn => ⟨decodeWord_encode (.call nnn), fun hsp => ?_, fun hsp => ?_⟩
  · refine ⟨_, exec_call_ok s nnn hsp, rfl, zext16_toNat nnn, rfl, fun k => ?_, fun _ => rfl⟩
    simp only [State.setPc_stack, Fin.getElem_fin, Vector.getElem_set, eq_comm (a := k.val)]
  · exact haltsWith_of_exec_eq_raise (exec_call_full s nnn hsp)

/-- Settles O17, by RET's two equations: on a stack that is not empty it goes to the slot below SP and writes PC and SP
alone, and an empty one faults. -/
theorem returnPopsAddress : Obligations.ReturnPopsAddress := by
  refine fun s => ⟨decodeWord_encode .ret, fun k hk => ?_, fun hsp => ?_⟩
  · have hslot : s.sp.val - 1 = k.val := by omega
    refine ⟨_, exec_ret_ok s (by omega), rfl, ?_, hslot, fun _ => rfl⟩
    simp only [State.setPc_pc, hslot, Fin.getElem_fin]
  · exact haltsWith_of_exec_eq_raise (exec_ret_empty s hsp)

/-- Settles O19: each of the four is `skipIf` on its own comparison. -/
theorem registerSkips : Obligations.RegisterSkips := fun _ x y nn =>
  ⟨⟨decodeWord_encode (.seVxNn x nn), skipsWhen_of_exec_eq_skipIf rfl beq_iff_eq⟩,
   ⟨decodeWord_encode (.sneVxNn x nn), skipsWhen_of_exec_eq_skipIf rfl bne_iff_ne⟩,
   ⟨decodeWord_encode (.seVxVy x y), skipsWhen_of_exec_eq_skipIf rfl beq_iff_eq⟩,
   ⟨decodeWord_encode (.sneVxVy x y), skipsWhen_of_exec_eq_skipIf rfl bne_iff_ne⟩⟩

end Sys2Proof.Machine
end

section
/-! Register loads, the ALU and the random byte (spec 42_alu.md). -/

namespace Sys2Proof.Machine

/-- The carry flag compares the exact sum (spec R138, R140). -/
@[simp] theorem carryFlag_toNat (a b : Byte) : (carryFlag a b).toNat = if a.toNat + b.toNat > 255 then 1 else 0 := by
  simp only [carryFlag, flagByte_toNat, decide_eq_true_eq]

/-- The no-borrow flag compares minuend and subtrahend (spec R139, R140). -/
@[simp] theorem noBorrowFlag_toNat (a b : Byte) : (noBorrowFlag a b).toNat = if a.toNat ≥ b.toNat then 1 else 0 := by
  simp only [noBorrowFlag, flagByte_toNat, decide_eq_true_eq]

/-- The difference mod 256 as a natural number: the remainder is never negative (spec R130). -/
theorem differenceByte_toNat_eq (a b : Byte) :
    (differenceByte a b).toNat = (((a.toNat : Int) - (b.toNat : Int)) % 256).toNat := by
  rw [← differenceByte_toNat, Int.toNat_natCast]

/-- An instruction that sets V[x] and does nothing else writes that register alone (spec R21). -/
theorem writesRegister_of_exec_eq_setV {i : Instr} {s : State} {x : Reg} {b : Byte} (h : exec i s = .next (s.setV x b)) :
    WritesRegister i s x b := by
  refine ⟨_, h, rfl, ?_, fun j hj => ?_, fun _ => rfl⟩
  · rw [State.getV_setV, if_pos rfl]
  · rw [State.getV_setV, if_neg hj]

/-- An instruction that sets V[x] and then VF leaves the flag in VF, and the result in V[x] unless x = F (spec R131). -/
theorem writesResultAndFlag_of_exec_eq_setVFlag {i : Instr} {s : State} {x : Reg} {r f : Byte} {result flag : Nat}
    (h : exec i s = .next (s.setVFlag x r f)) (hr : r.toNat = result) (hf : f.toNat = flag) :
    WritesResultAndFlag i s x result flag := by
  refine ⟨_, h, rfl, ?_, fun hx => ?_, fun j hjx hjf => ?_, fun _ => rfl⟩
  · rw [State.getV_setVFlag, if_pos rfl, hf]
  · rw [State.getV_setVFlag, if_neg hx, if_pos rfl, hr]
  · rw [State.getV_setVFlag, if_neg hjf, if_neg hjx]

/-- Settles O22: the byte written is the sum mod 256, and the flag compares the exact sum with 255. -/
theorem addSetsCarry : Obligations.AddSetsCarry := fun _ x y =>
  ⟨decodeWord_encode (.addVxVy x y),
   writesResultAndFlag_of_exec_eq_setVFlag rfl (sumByte_toNat _ _) (carryFlag_toNat _ _)⟩

/-- Settles O23: one difference and one no-borrow flag serve both, with the operands exchanged. -/
theorem subtractsSetNoBorrow : Obligations.SubtractsSetNoBorrow := fun _ x y =>
  ⟨⟨decodeWord_encode (.sub x y),
    writesResultAndFlag_of_exec_eq_setVFlag rfl (differenceByte_toNat_eq _ _) (noBorrowFlag_toNat _ _)⟩,
   ⟨decodeWord_encode (.subn x y),
    writesResultAndFlag_of_exec_eq_setVFlag rfl (differenceByte_toNat_eq _ _) (noBorrowFlag_toNat _ _)⟩⟩

/-- Settles O24: neither meaning reads Y, which the decoder keeps. -/
theorem shiftsMoveOneBit : Obligations.ShiftsMoveOneBit := fun _ x y =>
  ⟨⟨decodeWord_encode (.shr x y),
    writesResultAndFlag_of_exec_eq_setVFlag rfl (shiftRightOne_toNat _) (shiftedOutRight_toNat _)⟩,
   ⟨decodeWord_encode (.shl x y),
    writesResultAndFlag_of_exec_eq_setVFlag rfl (shiftLeftOne_toNat _) (shiftedOutLeft_toNat _)⟩⟩

/-- Settles O20: each of the three sets V[x] alone. -/
theorem loadsAndImmediateAdd : Obligations.LoadsAndImmediateAdd := fun _ x y nn =>
  ⟨⟨decodeWord_encode (.ldVxNn x nn), writesRegister_of_exec_eq_setV rfl⟩,
   ⟨decodeWord_encode (.addVxNn x nn), _, sumByte_toNat _ _, writesRegister_of_exec_eq_setV rfl⟩,
   ⟨decodeWord_encode (.ldVxVy x y), writesRegister_of_exec_eq_setV rfl⟩⟩

/-- Settles O21: each of the three sets V[x] alone, to the word operation whose bits are those of the operands. -/
theorem bitwiseOperations : Obligations.BitwiseOperations := fun _ x y =>
  ⟨⟨decodeWord_encode (.orVxVy x y), _, fun _ _ => BitVec.getLsbD_or, writesRegister_of_exec_eq_setV rfl⟩,
   ⟨decodeWord_encode (.andVxVy x y), _, fun _ _ => BitVec.getLsbD_and, writesRegister_of_exec_eq_setV rfl⟩,
   ⟨decodeWord_encode (.xorVxVy x y), _, fun _ _ => BitVec.getLsbD_xor, writesRegister_of_exec_eq_setV rfl⟩⟩

/-- Settles O25: the draw moves the counter on by one, and the masked byte is then set in V[x] alone. -/
theorem randomByteIsMasked : Obligations.RandomByteIsMasked := by
  refine fun s x nn => ⟨decodeWord_encode (.rnd x nn), _, rfl, rfl, rfl, fun k _ => ?_, fun j hj => ?_, fun _ => rfl⟩
  · rw [State.getV_setV, if_pos rfl, State.draw_fst, BitVec.getLsbD_and]
  · rw [State.getV_setV, if_neg hj, State.getV_draw_snd]

end Sys2Proof.Machine
end

section
/-! The index register, the BCD store and the block transfers (spec 43_index_memory.md). -/

namespace Sys2Proof.Machine

/-- An instruction that sets I and does nothing else moves the index register to the value's number (spec R27). -/
theorem movesIndex_of_exec_eq_setI {i : Instr} {s : State} {w : Word} {value : Nat}
    (h : exec i s = .next (s.setI w)) (hw : w.toNat = value) : MovesIndex i s value :=
  ⟨_, h, rfl, hw, fun _ => rfl⟩

/-- Settles O26: each of the three sets I alone; FX1E's sum wraps at 16 bits and FX29's product is exact. -/
theorem indexRegisterMoves : Obligations.IndexRegisterMoves := fun s x nnn =>
  ⟨⟨decodeWord_encode (.ldINnn nnn), movesIndex_of_exec_eq_setI rfl (zext16_toNat nnn)⟩,
   ⟨decodeWord_encode (.addIVx x), movesIndex_of_exec_eq_setI rfl (indexSum_toNat s x)⟩,
   ⟨decodeWord_encode (.ldFVx x), movesIndex_of_exec_eq_setI rfl (glyphAddress_toNat s x)⟩⟩

/-- The BCD converter answers the hundreds, tens and ones of its byte (spec R163). -/
theorem bcdDigits_spec (b : Byte) : ∃ h d o : Byte, bcdDigits b = [h, d, o] ∧
    h.toNat ≤ 2 ∧ d.toNat ≤ 9 ∧ o.toNat ≤ 9 ∧ 100 * h.toNat + 10 * d.toNat + o.toNat = b.toNat := by
  have hb := b.isLt
  refine ⟨_, _, _, rfl, ?_⟩
  simp only [BitVec.toNat_ofNat]
  omega

/-- Settles O27: FX33 is one block write of the three digits, or its fault. -/
theorem bcdStore : Obligations.BcdStore := by
  refine fun s x => ⟨decodeWord_encode (.ldBVx x), fun hfit => ?_, fun hout => ?_⟩
  · obtain ⟨h, d, o, hdigits, hh, hd, ho, hsum⟩ := bcdDigits_spec (s.getV x)
    have hexec := exec_ldBVx_ok s x hfit
    rw [hdigits] at hexec
    have hread (k : Nat) (hk : k < 3) :
        (s.mem.writeFrom (dataAddress s) [h, d, o]).read (dataAddress s + k) = some [h, d, o][k] :=
      Memory.read_writeFrom_inside s.mem hk (by omega)
    exact ⟨_, h, d, o, hexec, rfl, hh, hd, ho, hsum, hread 0 (by decide), hread 1 (by decide), hread 2 (by decide),
      fun a ha => Memory.read_writeFrom_outside s.mem (ha.imp_right Nat.succ_le_of_lt)⟩
  · exact haltsWith_of_exec_eq_raise (exec_ldBVx_fault s x hout)

/-- Settles O28: FX55 is one block write of V[0]..V[X], or its fault. -/
theorem storeRegisters : Obligations.StoreRegisters := by
  refine fun s x => ⟨decodeWord_encode (.ldMemVx x), fun hfit => ?_, fun hout => ?_⟩
  · refine ⟨_, exec_ldMemVx_ok s x hfit, rfl, fun k (hk : k.val ≤ x.val) => ?_, fun a ha => ?_⟩
    · exact read_writeFrom_regsUpTo s x (by omega) (by omega)
    · exact Memory.read_writeFrom_outside s.mem (by rw [State.regsUpTo_length]; omega)
  · exact haltsWith_of_exec_eq_raise (exec_ldMemVx_fault s x hout)

/-- V[k] after FX65's load: the byte at I + k up to V[X], and as before above it (spec R166). -/
theorem getV_setRegs_bytesAtI (s : State) (x k : Reg) :
    (s.setRegs (setRegsFrom s.v 0 (bytesAtI s (x.val + 1)))).getV k =
      if k.val ≤ x.val then s.mem.byteAt (dataAddress s + k.val) else s.getV k := by
  have hlen : (bytesAtI s (x.val + 1)).length = x.val + 1 := by rw [List.length_map, List.length_range]
  rw [State.getV, State.setRegs_v, setRegsFrom_getElem]
  by_cases hk : k.val ≤ x.val
  · rw [dif_pos (by omega), if_pos hk, List.getElem_map, List.getElem_range, Nat.sub_zero]
  · rw [dif_neg (by omega), if_neg hk, State.getV]

/-- Settles O29: FX65 is one block read into V[0]..V[X], or its fault. -/
theorem loadRegisters : Obligations.LoadRegisters := by
  refine fun s x => ⟨decodeWord_encode (.ldVxMem x), fun hfit => ?_, fun hout => ?_⟩
  · refine ⟨_, exec_ldVxMem_ok s x hfit, rfl, fun k (hk : k.val ≤ x.val) => ?_, fun k (hk : x.val < k.val) => ?_, fun _ => rfl⟩
    · rw [getV_setRegs_bytesAtI, if_pos hk, Memory.read_eq, if_pos (by omega)]
    · rw [getV_setRegs_bytesAtI, if_neg (by omega)]
  · exact haltsWith_of_exec_eq_raise (exec_ldVxMem_fault s x hout)

/-- Settles O30: FX55 leaves V[k] at I + k, where FX65, with I kept, reads it. -/
theorem dumpLoadRoundTrip : Obligations.DumpLoadRoundTrip := by
  intro s x between h
  have hfit : dataAddress s + x.val < 4096 := Nat.lt_succ_of_le h
  obtain ⟨-, hstore, -⟩ := storeRegisters s x
  obtain ⟨t, ht, hframe, hstored, -⟩ := hstore hfit
  have haddr : dataAddress { t with v := between } = dataAddress s := by rw [hframe]; rfl
  obtain ⟨-, hload, -⟩ := loadRegisters { t with v := between } x
  rw [haddr] at hload
  obtain ⟨u, hu, -, hloaded, hkept, -⟩ := hload hfit
  exact ⟨t, u, ht, hu, fun k hk => Option.some.inj ((hloaded k hk).trans (hstored k hk)), hkept⟩

end Sys2Proof.Machine
end

section
/-! The display (spec 44_display.md): the clear, one draw, and the same draw twice. -/

namespace Sys2Proof.Machine

/-- A flag's byte is 1 exactly when its condition holds (spec R31). -/
theorem flagByte_eq_one_iff (c : Bool) : flagByte c = 1 ↔ c = true := by
  cases c <;> decide

/-- A flag's byte is 0 or 1 (spec R31). -/
theorem flagByte_eq_zero_or_one (c : Bool) : flagByte c = 0 ∨ flagByte c = 1 := by
  cases c
  · exact .inl rfl
  · exact .inr rfl

/-- Settles O31: every pixel of the blank screen is unset, and the screen alone is written. -/
theorem clearScreen : Obligations.ClearScreen := fun _ =>
  ⟨decodeWord_encode .cls, _, rfl, rfl, blankScreen_pixel, fun _ => rfl⟩

/-- Settles O32: DXYN leaves the screen the drawing unit gives and, in VF, the collision detector's flag; or its fault. -/
theorem drawSpriteXorsAndCollides : Obligations.DrawSpriteXorsAndCollides := by
  refine fun s x y n => ⟨decodeWord_encode (.drw x y n), fun hfit => ?_, fun hn hout => ?_⟩
  · have hflag : ((s.setScreen (drawn s x y n).screen).setV regF (flagByte (drawn s x y n).collision)).getV 15 =
        flagByte (drawn s x y n).collision := (State.getV_setV ..).trans (if_pos rfl)
    refine ⟨_, exec_drw_ok s x y n hfit, rfl, drawn_pixel s x y n, ?_, ?_, fun j hj => ?_, fun _ => rfl⟩
    · rw [hflag]
      exact flagByte_eq_zero_or_one _
    · rw [hflag, flagByte_eq_one_iff, drawn_collision]
    · exact (State.getV_setV ..).trans (if_neg hj)
  · exact haltsWith_of_exec_eq_raise (exec_drw_fault s x y n ⟨hn, hout⟩)

/-- Some cell lies under a sprite exactly where the sprite has a set bit: wrapping gives every bit a cell (spec R191). -/
theorem exists_underSprite_iff (s : State) (x0 y0 n : Nat) :
    (∃ (px : Fin 64) (py : Fin 32), underSprite s x0 y0 n px py) ↔
      ∃ r < n, ∃ c < 8, (s.mem.byteAt (dataAddress s + r)).getLsbD c = true := by
  constructor
  · rintro ⟨px, py, r, c, hr, -, -, -, hbit⟩
    exact ⟨r, hr, 7 - c, by omega, hbit⟩
  · rintro ⟨r, hr, c, hc, hbit⟩
    have hcol : 7 - (7 - c) = c := by omega
    exact ⟨⟨(x0 + (7 - c)) % 64, by omega⟩, ⟨(y0 + r) % 32, by omega⟩, r, 7 - c, hr, by omega, rfl, rfl, by rwa [hcol]⟩

/-- Two flips of the cells where `under` holds leave each cell as it was. -/
theorem eq_of_flipped_twice {p q r : Bool} {under : Prop} (hq : q = true ↔ (p = true ↔ ¬ under))
    (hr : r = true ↔ (q = true ↔ ¬ under)) : r = p := by
  rw [Bool.eq_iff_iff, hr, hq]
  by_cases h : under <;> simp [h]

/-- Settles O33: the first draw leaves V[X], V[Y], I and memory, so that the second flips the same cells; each of them is
set before the second draw exactly where it was unset before the first. -/
theorem drawTwiceRestoresScreen : Obligations.DrawTwiceRestoresScreen := by
  intro s x y n hx hy hfit
  obtain ⟨-, hfirst, -⟩ := drawSpriteXorsAndCollides s x y n
  obtain ⟨t, ht, hframe, htpix, -, htflag, htv, -⟩ := hfirst hfit
  obtain ⟨-, hsecond, -⟩ := drawSpriteXorsAndCollides t x y n
  have haddr : dataAddress t = dataAddress s := by rw [hframe]; rfl
  have hunder : underSprite t = underSprite s := by rw [hframe]; rfl
  rw [haddr, hunder, htv x hx, htv y hy] at hsecond
  obtain ⟨u, hu, -, hupix, -, huflag, -, -⟩ := hsecond hfit
  set under := underSprite s ((s.getV x).toNat % 64) ((s.getV y).toNat % 32) n.val
  have hflag : u.getV 15 = 1 ↔ ∃ px py, under px py ∧ Screen.pixel s.screen px py = false := by
    rw [huflag]
    refine exists₂_congr fun px py => and_congr_right fun h => ?_
    rw [htpix, iff_false_right (not_not_intro h), Bool.not_eq_true]
  refine ⟨t, u, ht, hu, Screen.ext_pixel fun px py => eq_of_flipped_twice (htpix px py) (hupix px py), hflag, fun hclear => ?_⟩
  have hunset : ∀ px py, under px py → Screen.pixel s.screen px py = false := fun px py h =>
    Bool.eq_false_iff.2 fun hset => absurd (htflag.2 ⟨px, py, h, hset⟩) (by rw [hclear]; decide)
  rw [hflag, ← exists_underSprite_iff s ((s.getV x).toNat % 64) ((s.getV y).toNat % 32)]
  exact exists₂_congr fun px py => and_iff_left_of_imp (hunset px py)

end Sys2Proof.Machine
end

section
/-! Keys and timers (spec 45_keys_timers.md): the key wait, the key skips and the timer moves. -/

namespace Sys2Proof.Machine

/-- Settles O36: a key is the lowest pressed exactly when the scan answers it, and the scan answers none exactly when no
key is pressed. -/
theorem keyWaitTakesLowestKey : Obligations.KeyWaitTakesLowestKey := fun s x =>
  ⟨decodeWord_encode (.ldVxK x),
   fun j hj hbelow =>
    writesRegister_of_exec_eq_setV (exec_ldVxK_pressed s x j (lowestPressed_eq_some.2 ⟨hj, hbelow⟩)),
   fun hnone => exec_ldVxK_none s x (lowestPressed_eq_none.2 hnone)⟩

/-- The rewind undoes the PC advance, whatever PC is (spec R72, R213). -/
@[simp] theorem State.rewind_advance (s : State) : s.advance.rewind = s := by
  have hpc : s.advance.pc - 2 = s.pc := BitVec.add_sub_cancel _ _
  rw [State.rewind, hpc]
  rfl

/-- Where a STEP leaves the state as it was, so does any number of STEPs. -/
theorem stepsOnly_of_step_eq_self {s : State} (h : step s = .next s) (n : Nat) : StepsOnly n s s := by
  induction n with
  | zero => rfl
  | succ n ih =>
    simp only [StepsOnly, Host.Core.run, h]
    exact ih

/-- Settles O37: with no key pressed FX0A rewinds the advance the same STEP made. -/
theorem keyWaitSpins : Obligations.KeyWaitSpins := by
  intro s x n hf hw hnone
  have hstep : step s = .next s := by
    rw [step_eq_exec hf hw (decodeWord_encode _), exec_ldVxK_none s.advance x (lowestPressed_eq_none.2 hnone),
      State.rewind_advance]
  exact ⟨hstep, stepsOnly_of_step_eq_self hstep n⟩

/-- Settles O34: with a key index each of the two is `skipIf` on that key's state, EXA1 on its negation; without one
each raises its fault. -/
theorem keySkips : Obligations.KeySkips := by
  refine fun s x => ⟨decodeWord_encode (.skp x), decodeWord_encode (.sknp x), fun k hk => ?_, fun hx => ?_⟩
  · have hlt : (s.getV x).toNat < 16 := hk ▸ k.isLt
    have hkey : s.keys[(s.getV x).toNat] = s.keys[k] := by simp only [hk, Fin.getElem_fin]
    refine ⟨skipsWhen_of_exec_eq_skipIf (exec_skp_ok s x hlt) ?_, skipsWhen_of_exec_eq_skipIf (exec_sknp_ok s x hlt) ?_⟩
    · rw [hkey]
    · rw [hkey, Bool.not_eq_true']
  · exact ⟨haltsWith_of_exec_eq_raise (exec_skp_fault s x hx), haltsWith_of_exec_eq_raise (exec_sknp_fault s x hx)⟩

/-- Settles O35: FX07 sets V[x] alone, and FX15 and FX18 each set the one timer. -/
theorem timerMoves : Obligations.TimerMoves := fun _ x =>
  ⟨⟨decodeWord_encode (.ldVxDt x), writesRegister_of_exec_eq_setV rfl⟩,
   ⟨decodeWord_encode (.ldDtVx x), rfl⟩,
   ⟨decodeWord_encode (.ldStVx x), rfl⟩⟩

end Sys2Proof.Machine
end

section
/-! The faults of a STEP (spec R231-R236), which record and state each one leaves, and TICK (spec R240, R241). -/

namespace Sys2Proof.Machine

/-! ### The execute stage -/

/-- Settles O11: the instruction completes with its effect, or raises the fault its own check names. -/
theorem everyInstructionCompletesOrFaults : Obligations.EveryInstructionCompletesOrFaults := fun i s =>
  ⟨fun hnone => ⟨effect i s, exec_of_faultOf_none hnone⟩,
   fun _ hc => haltsWith_of_exec_eq_raise (exec_of_faultOf_some hc)⟩

/-- No check reads PC (spec R231). -/
@[simp] theorem faultOf_advance (i : Instr) (s : State) : faultOf i s.advance = faultOf i s := by
  cases i <;> rfl

/-- Which fault an instruction's check can name, and its info (the table of spec R231, codes 3 to 6). -/
theorem faultOf_cases {i : Instr} {s : State} {c : FaultCause} (h : faultOf i s = some c) :
    (c = .stackOverflow ∧ ∃ nnn, i = .call nnn) ∨
    (c = .stackUnderflow ∧ i = .ret) ∨
    (c = .memOutOfRange (max s.i.toNat 4096) ∧
      ((∃ x y n, i = .drw x y n) ∨ ∃ x, i = .ldBVx x ∨ i = .ldMemVx x ∨ i = .ldVxMem x)) ∨
    ∃ x, c = .keyIndexOutOfRange (s.getV x) ∧ (i = .skp x ∨ i = .sknp x) := by
  cases i <;> simp only [faultOf, Option.ite_none_right_eq_some, Option.some.injEq, reduceCtorEq] at h
  all_goals obtain ⟨-, rfl⟩ := h
  case call nnn => exact .inl ⟨rfl, nnn, rfl⟩
  case ret => exact .inr (.inl ⟨rfl, rfl⟩)
  case drw x y n => exact .inr (.inr (.inl ⟨rfl, .inl ⟨x, y, n, rfl⟩⟩))
  case ldBVx x => exact .inr (.inr (.inl ⟨rfl, .inr ⟨x, .inl rfl⟩⟩))
  case ldMemVx x => exact .inr (.inr (.inl ⟨rfl, .inr ⟨x, .inr (.inl rfl)⟩⟩))
  case ldVxMem x => exact .inr (.inr (.inl ⟨rfl, .inr ⟨x, .inr (.inr rfl)⟩⟩))
  case skp x => exact .inr (.inr (.inr ⟨x, rfl, .inl rfl⟩))
  case sknp x => exact .inr (.inr (.inr ⟨x, rfl, .inr rfl⟩))

/-- The faults of the execute stage are codes 3 to 6 (spec R231). -/
theorem code_of_faultOf {i : Instr} {s : State} {c : FaultCause} (h : faultOf i s = some c) :
    3 ≤ c.code ∧ c.code ≤ 6 := by
  obtain ⟨rfl, -⟩ | ⟨rfl, -⟩ | ⟨rfl, -⟩ | ⟨x, rfl, -⟩ := faultOf_cases h <;> simp [FaultCause.code]

/-! ### A faulting STEP -/

/-- The record a faulting STEP latches and the state it leaves, by the stage that raised the fault (spec R232, R234). The
address and word that the execute stage rebuilds are the ones fetched (log 6). -/
theorem step_fault_record {s t : State} {r : FaultRecord} (h : step s = .fault (.fatal r t)) :
    (r = ⟨.fetchOutOfRange s.pc, s.pc, none⟩ ∧ t = s.latch r) ∨
    ∃ w, fetchWord s = some w ∧ r.addr = s.pc ∧ r.word = some w ∧ t = s.advance.latch r ∧
      ((decodeWord w = none ∧ r.cause = .unimplementedOpcode w) ∨
        ∃ i, decodeWord w = some i ∧ faultOf i s = some r.cause) := by
  have haddr : s.advance.pc - 2 = s.pc := BitVec.add_sub_cancel _ _
  obtain ⟨-, ⟨-, hr⟩ | ⟨w, hw, ⟨hi, hr⟩ | ⟨i, hi, hr⟩⟩⟩ := step_fault h
  · cases hr
    exact .inl ⟨rfl, rfl⟩
  · cases hr
    exact .inr ⟨w, hw, haddr, rfl, rfl, .inl ⟨hi, rfl⟩⟩
  · obtain ⟨c, hc, hr⟩ := exec_fault hr
    cases hr
    have hword : some (encode i) = some w := congrArg some (encode_of_decodeWord hi)
    exact .inr ⟨w, hw, haddr, hword, rfl, .inr ⟨i, hi, faultOf_advance i s ▸ hc⟩⟩

/-- Settles O12: the fetch fault, code 2, is raised before the PC advance and every other fault after it; nothing but the
latch is written. -/
theorem faultsArePrecise : Obligations.FaultsArePrecise := by
  intro s t r h
  obtain ⟨rfl, rfl⟩ | ⟨w, -, -, -, rfl, hstage⟩ := step_fault_record h
  · rfl
  · have hcode : r.cause.code ≠ 2 := by
      obtain ⟨-, hc⟩ | ⟨i, -, hc⟩ := hstage
      · simp only [hc, FaultCause.code, ne_eq, OfNat.one_ne_ofNat, not_false_eq_true]
      · have := code_of_faultOf hc
        omega
    rw [if_neg hcode]
    rfl

/-- Settles O13: the record of each stage, and for the execute stage the fault and info its instruction's check names. -/
theorem faultRecordNamesTheInstruction : Obligations.FaultRecordNamesTheInstruction := by
  intro s t r h
  obtain ⟨rfl, -⟩ | ⟨w, hw, haddr, hword, -, hstage⟩ := step_fault_record h
  · exact ⟨rfl, .inl ⟨rfl, rfl, rfl⟩⟩
  refine ⟨haddr, .inr ⟨w, hw, hword, ?_⟩⟩
  obtain ⟨hi, hc⟩ | ⟨i, hi, hc⟩ := hstage
  · exact .inl (by rw [hc]; exact ⟨rfl, hi, rfl⟩)
  obtain ⟨hlow, hhigh⟩ := code_of_faultOf hc
  refine .inr ⟨i, hi, hc, hlow, hhigh, ?_⟩
  obtain ⟨hcause, hcall⟩ | ⟨hcause, hret⟩ | ⟨hcause, hmemory⟩ | ⟨x, hcause, hkey⟩ := faultOf_cases hc
  · simpa [hcause, FaultCause.code, FaultCause.info] using hcall
  · simpa [hcause, FaultCause.code, FaultCause.info] using hret
  · simpa [hcause, FaultCause.code, FaultCause.info] using hmemory
  · simpa [hcause, FaultCause.code, FaultCause.info] using ⟨x, hkey, rfl⟩

/-! ### TICK -/

/-- TICK on a core that is not halted counts the timers down and answers `tone_stop` (spec R240, R241). -/
theorem tick_ok {s : State} (h : s.fault = none) : tick s = .next (s.countedDown, toneStop s) := by
  simp only [tick, h]

/-- `tone_stop` says that ST is 1, from where the count goes to 0 (spec R241). -/
theorem toneStop_iff (s : State) : toneStop s = true ↔ s.st.toNat = 1 := by
  simp only [toneStop, beq_iff_eq, BitVec.toNat_eq, BitVec.reduceToNat]

/-- Settles O51, by the count of each timer: where `tone_stop` says that ST is 1, the count takes it to 0. -/
theorem tickCountsDown : Obligations.TickCountsDown := by
  refine fun s hf => ⟨_, _, tick_ok hf, rfl, countDown_toNat s.dt, countDown_toNat s.st, ?_⟩
  rw [toneStop_iff, State.countedDown_st, countDown_toNat]
  omega

end Sys2Proof.Machine
end

section
/-! The spin end of a run (spec R268 (a)). -/

namespace Sys2Proof.Machine

/-- Settles O48: a STEP at a spin end leaves the whole state, so any number of them does, and a TICK counts the timers
down, which the spin end does not depend on. -/
theorem spinEndStays : Obligations.SpinEndStays := by
  intro s h
  have hstep : step s = .next s := h.step_eq
  have hticked : SpinEnd s.countedDown := h.congr (countDown s.dt) (countDown s.st) s.keys
  exact ⟨hstep, stepsOnly_of_step_eq_self hstep, s.countedDown, toneStop s, tick_ok h.1, hticked⟩

end Sys2Proof.Machine
end

section
/-! Canonical memory: the listed cells are exactly the ones whose reads differ from their reset content (log 4). -/

namespace Sys2Proof.Machine

/-- A byte that a list of cells gives an address stands in the list. -/
theorem mem_of_cellAt {a : Nat} {v : Byte} {cs : List Host.Cell} (h : cellAt a cs = some v) : (a, v) ∈ cs := by
  induction cs with
  | nil => cases h
  | cons c cs ih =>
    rw [cellAt] at h
    split_ifs at h with hc
    · cases hc; cases h; exact List.mem_cons_self
    · exact List.mem_cons_of_mem _ (ih h)

/-- Among cells in rising order, a listed cell is what its address is given. -/
theorem cellAt_of_mem {c : Host.Cell} {cs : List Host.Cell} (hcs : cs.Pairwise (fun c d => c.1 < d.1))
    (h : c ∈ cs) : cellAt c.1 cs = some c.2 := by
  induction cs with
  | nil => cases h
  | cons d ds ih =>
    obtain ⟨hd, hds⟩ := List.pairwise_cons.1 hcs
    rw [cellAt]
    rcases List.mem_cons.1 h with rfl | h
    · exact if_pos rfl
    · rw [if_neg (hd c h).ne, ih hds h]

/-- Canonical memory lists a cell iff its address reads as its byte and that is not the reset content. -/
theorem Memory.mem_cells_iff {m : Memory} (hm : m.wf) (c : Host.Cell) :
    c ∈ m.cells ↔ m.read c.1 = some c.2 ∧ c.2 ≠ Memory.resetByte c.1 := by
  obtain ⟨hrising, hcells⟩ := hm
  constructor
  · intro hc
    obtain ⟨hlt, hne⟩ := hcells c hc
    rw [Memory.read_eq, if_pos hlt, Memory.byteAt, cellAt_of_mem hrising hc]
    exact ⟨rfl, hne⟩
  · rintro ⟨hread, hne⟩
    rw [Memory.read_eq, Option.ite_none_right_eq_some, Option.some.injEq, Memory.byteAt] at hread
    obtain ⟨-, hbyte⟩ := hread
    cases hcell : cellAt c.1 m.cells with
    | none => rw [hcell] at hbyte; exact absurd hbyte.symm hne
    | some v => rw [hcell] at hbyte; cases hbyte; exact mem_of_cellAt hcell

/-- Settles O46: the reads determine which cells are listed, and a list in strictly rising order is determined by its
members. -/
theorem equalMemoriesAreEqualData : Obligations.EqualMemoriesAreEqualData := by
  intro m m' hm hm' hread
  have hmem : ∀ c, c ∈ m.cells ↔ c ∈ m'.cells := fun c => by
    rw [Memory.mem_cells_iff hm, Memory.mem_cells_iff hm', hread]
  have : Std.Asymm (fun c d : Host.Cell => c.1 < d.1) := ⟨fun _ _ h => h.asymm⟩
  have hcells : m.cells = m'.cells := hm.1.eq_of_mem_iff hm'.1 hmem
  cases m; cases m'; cases hcells; rfl

end Sys2Proof.Machine
end
